-- ==== Sys2Proof/Word.lean ====
section
/-! DEFINITION. The units of data of spec/00_scope.md rules R8 and R9. -/

namespace Sys2Proof

/-- "8-bit unit, the atomic element of the AES state" (R8). -/
abbrev Byte := BitVec 8

/-- "4-bit unit" (R8). -/
abbrev Nibble := BitVec 4

/-- A 32-bit unsigned address or length (R6 `AW`, `LW`). -/
abbrev Addr := BitVec 32

/-- "ordered sequence of 4 bytes; one AES state column" (R9). -/
abbrev Word := Vector Byte 4

/-- "ordered sequence of 16 bytes", positions 0 to 15 (R9). -/
abbrev Block := Vector Byte 16

end Sys2Proof
end

