-- ==== Sys2Proof/Config.lean ====
section
/-! DEFINITION. What one instance of the block fixes (R6, R7), and the values the spec leaves open (R31, R171). -/

namespace Sys2Proof

/-- The table store `TBL` (R27): a total function from every table selector and every byte to an entry of the
table's width. Indices in the order of R27: `r` round, `c` column, `s` fold step, `b` byte position, `h` half
(0 high, 1 low). -/
structure TableStore where
  /-- `T.IM[i]`, input mask, ByteTable16. -/
  im : Fin 16 → Byte → Block
  /-- `T.IX[s][b][h]`, input chain, ByteTable1. -/
  ix : Fin 15 → Fin 16 → Fin 2 → Byte → Nibble
  /-- `T.TY[r][p]`, high tables, ByteTable4. -/
  ty : Fin 9 → Fin 16 → Byte → Word
  /-- `T.HX[r][c][s][b][h]`, high-fold nibble tables. -/
  hx : Fin 9 → Fin 4 → Fin 3 → Fin 4 → Fin 2 → Byte → Nibble
  /-- `T.MB[r][p]`, low tables, ByteTable4. -/
  mb : Fin 9 → Fin 16 → Byte → Word
  /-- `T.LX[r][c][s][b][h]`, low-fold nibble tables. -/
  lx : Fin 9 → Fin 4 → Fin 3 → Fin 4 → Fin 2 → Byte → Nibble
  /-- `T.OM[i]`, output mask, ByteTable16. -/
  om : Fin 16 → Byte → Block
  /-- `T.OX[s][b][h]`, output chain, ByteTable1. -/
  ox : Fin 15 → Fin 16 → Fin 2 → Byte → Nibble
  deriving Inhabited

/-- The strap `DIRCAP` (R7, R25). -/
inductive DirCap where
  | both | encOnly | decOnly
  deriving DecidableEq, Repr, Inhabited

namespace Config

/-- The constant `BLOCK_SIZE` (R24). -/
def blockSize : Byte := 16#8

/-- The contents of the table store, the open parameter `T` of R7 and R28: any contents, never changed.
No body: no proof sees a table (log 6). -/
opaque tables : TableStore

/-- The strap of this instance, the open parameter `DIRCAP` of R7 and R25 (log 7). -/
opaque dircap : DirCap

/-- FREE VALUE: the byte in slot `slot` that reset number `draw` leaves behind (R31, R170, R171; logs 4 and 5). -/
opaque freeByte (draw slot : Nat) : Byte

/-- FREE VALUE: what reset number `draw` leaves in the 32-bit latch in slot `slot` (R31; log 4). -/
opaque freeAddr (draw slot : Nat) : Addr

/-- FREE VALUE: what reset number `draw` leaves in `DIR` (R31; log 4). -/
opaque freeBit (draw : Nat) : BitVec 1

end Config

end Sys2Proof
end

