-- ==== Sys2Proof/Syntax.lean ====
section
/-! DEFINITION. The operations of spec/opcode_table.json (25 rows, 25 constructors), the words that select them
(R60, R63, R64) and the response (R62). -/

namespace Sys2Proof

/-- The two expand-and-fold passes of a main round (R122): high uses TY and HX, low uses MB and LX. -/
inductive Path where
  | high | low
  deriving DecidableEq, Repr

/-- The two uses of the block-wide expand-and-fold (R112): input uses IM and IX, output uses OM and OX. -/
inductive Side where
  | input | output
  deriving DecidableEq, Repr

/-- The name of a ByteTable1, by the `SEL` fields of its space (R65). -/
inductive NibSel where
  | ix (npos : BitVec 5) (step : BitVec 4)
  | hx (round : BitVec 4) (npos : BitVec 5) (step : BitVec 2)
  | lx (round : BitVec 4) (npos : BitVec 5) (step : BitVec 2)
  | ox (npos : BitVec 5) (step : BitVec 4)
  deriving DecidableEq, Repr

/-- The operations of the block, one constructor for each row of the table. Fields are the fields of the row's
format; the rows with no format carry the operands their rules name. -/
inductive Instr where
  /-- BLKSZ (R135). -/
  | blksz
  /-- ENC (R136). -/
  | enc (dstAddr dstLen srcAddr srcLen : Addr)
  /-- DEC (R137). -/
  | dec (dstAddr dstLen srcAddr srcLen : Addr)
  /-- INPUT_UNMASK (R120). -/
  | inputUnmask
  /-- MAIN_ROUND(r) (R121). -/
  | mainRound (round : BitVec 4)
  /-- FINAL_ROUND (R123). -/
  | finalRound
  /-- DONE (R124). -/
  | done
  /-- SHIFTROWS (R90). -/
  | shiftrows
  /-- UNSHIFTROWS (R91). -/
  | unshiftrows
  /-- GET16.IM (R80). -/
  | get16IM (pos : BitVec 4) (idx : Byte)
  /-- GET1.IX (R82). -/
  | get1IX (npos : BitVec 5) (step : BitVec 4) (idx : Byte)
  /-- GET4.TY (R81). -/
  | get4TY (round pos : BitVec 4) (idx : Byte)
  /-- GET1.HX (R82). -/
  | get1HX (round : BitVec 4) (npos : BitVec 5) (step : BitVec 2) (idx : Byte)
  /-- GET4.MB (R81). -/
  | get4MB (round pos : BitVec 4) (idx : Byte)
  /-- GET1.LX (R82). -/
  | get1LX (round : BitVec 4) (npos : BitVec 5) (step : BitVec 2) (idx : Byte)
  /-- GET16.OM (R80). -/
  | get16OM (pos : BitVec 4) (idx : Byte)
  /-- GET1.OX (R82). -/
  | get1OX (npos : BitVec 5) (step : BitVec 4) (idx : Byte)
  /-- PERM (R93). -/
  | perm
  /-- EXPANDW (R100). -/
  | expandw (path : Path) (round : BitVec 4) (col : BitVec 2)
  /-- FOLDSTEP (R101). -/
  | foldstep (th tl : NibSel) (acc nxt : Byte)
  /-- FOLDW (R102). -/
  | foldw (path : Path) (round : BitVec 4) (col : BitVec 2)
  /-- COLUMN (R122). -/
  | column (round : BitVec 4) (col : BitVec 2)
  /-- EXPANDB (R110). -/
  | expandb (side : Side)
  /-- FOLDB (R111). -/
  | foldb (side : Side)
  /-- CRYPT (R125). -/
  | crypt (dir : BitVec 1) (src : Block)
  deriving DecidableEq, Repr

/-- The states of the sequencer (R21); exactly twelve values (spec/93 U9). -/
inductive Seq where
  | inputUnmask
  | mainRound (r : Fin 9)
  | finalRound
  | done
  deriving DecidableEq, Repr

/-- A word that selects an operation, by format (spec/30_encoding.md section 5). -/
inductive CodeWord where
  | cmd (c : BitVec 136)
  | seq (q : BitVec 6)
  | dir (d : BitVec 1)
  | taddr (a : BitVec 24)
  deriving DecidableEq, Repr

/-- The formats of the table; `none` for an operation that is "not separately decoded". -/
inductive Format where
  | cmd | seq | dir | taddr | none
  deriving DecidableEq, Repr

/-- The outcome field of a response (R62, R150); the reserved codes have no constructor (spec/93 U9). -/
inductive RespCode where
  | ok | illegalCommand | invalidInputLength | invalidOutputLength | badSlice
  deriving DecidableEq, Repr

/-- A response word `RESP` as its two fields (R62). -/
structure Resp where
  code : RespCode
  value : Byte
  deriving DecidableEq, Repr

/-- The faults of R150, with the value each records. -/
inductive CmdFault where
  | illegalCommand (opcode : Byte)
  | invalidInputLength
  | invalidOutputLength
  | badSlice
  deriving DecidableEq, Repr

end Sys2Proof
end

