-- ==== Sys2Proof/WellFormed.lean ====
section
/-! DEFINITION. Which operations name a round and a table that exist (R65, R70). -/

namespace Sys2Proof

/-- `ROUND` names one of the nine main rounds (R63, R65). -/
def roundOk (r : BitVec 4) : Bool := decide (r.toNat < 9)

/-- `STEP` of IX and OX: 0 to 14 (R65). -/
def blockStepOk (s : BitVec 4) : Bool := decide (s.toNat < 15)

/-- `STEP` of HX and LX: 0 to 2 (R65). -/
def wordStepOk (s : BitVec 2) : Bool := decide (s.toNat < 3)

/-- The selector names a nibble table (R65). -/
def NibSel.wf : NibSel → Bool
  | .ix _ step => blockStepOk step
  | .hx round _ step => roundOk round && wordStepOk step
  | .lx round _ step => roundOk round && wordStepOk step
  | .ox _ step => blockStepOk step

/-- Every round and every table the operation names exists (R70). -/
def Instr.wf : Instr → Bool
  | .blksz => true
  | .enc _ _ _ _ => true
  | .dec _ _ _ _ => true
  | .inputUnmask => true
  | .mainRound round => roundOk round
  | .finalRound => true
  | .done => true
  | .shiftrows => true
  | .unshiftrows => true
  | .get16IM _ _ => true
  | .get1IX npos step _ => (NibSel.ix npos step).wf
  | .get4TY round _ _ => roundOk round
  | .get1HX round npos step _ => (NibSel.hx round npos step).wf
  | .get4MB round _ _ => roundOk round
  | .get1LX round npos step _ => (NibSel.lx round npos step).wf
  | .get16OM _ _ => true
  | .get1OX npos step _ => (NibSel.ox npos step).wf
  | .perm => true
  | .expandw _ round _ => roundOk round
  | .foldstep th tl _ _ => th.wf && tl.wf
  | .foldw _ round _ => roundOk round
  | .column round _ => roundOk round
  | .expandb _ => true
  | .foldb _ => true
  | .crypt _ _ => true

end Sys2Proof
end

