-- ==== Sys2Proof/Decode.lean ====
section
/-! DEFINITION. Decoding and encoding of the words of spec/30_encoding.md: CMD (R60, R61), SEQ (R63), DIR (R22),
TADDR (R64, R65), RESP (R62), table entries (R66). -/

namespace Sys2Proof

/-- Why a word selects no operation. -/
inductive DecodeError where
  /-- The opcode is in no row of the opcode map (R61, R70). -/
  | reservedOpcode (op : Byte)
  /-- Not one of the twelve values of R63. -/
  | noSequencerState (q : BitVec 6)
  /-- The address is of no table (R70). -/
  | noTable (a : BitVec 24)
  deriving DecidableEq, Repr

/-! ### CMD -/

/-- `CMD.OPCODE`, bits 7 to 0 (R60). -/
def cmdOpcode (c : BitVec 136) : Byte := c.extractLsb' 0 8

/-- `CMD.DST_ADDR`, bits 39 to 8 (R60). -/
def cmdDstAddr (c : BitVec 136) : Addr := c.extractLsb' 8 32

/-- `CMD.DST_LEN`, bits 71 to 40 (R60). -/
def cmdDstLen (c : BitVec 136) : Addr := c.extractLsb' 40 32

/-- `CMD.SRC_ADDR`, bits 103 to 72 (R60). -/
def cmdSrcAddr (c : BitVec 136) : Addr := c.extractLsb' 72 32

/-- `CMD.SRC_LEN`, bits 135 to 104 (R60). -/
def cmdSrcLen (c : BitVec 136) : Addr := c.extractLsb' 104 32

/-- The opcode map with `DIRCAP` applied (R61, R70, R71): the opcodes reserved in an instance strapped `cap`. -/
def reservedOpcode (cap : DirCap) (op : Byte) : Bool :=
  !(op == 0x01#8 || (op == 0x02#8 && cap != .decOnly) || (op == 0x03#8 && cap != .encOnly))

/-- A command word (R60, R61). The strap is not looked at here: an ENC or DEC the instance lacks is decoded and
then refused at acceptance (R136, R137, R138; log 23). -/
def decodeCmd (c : BitVec 136) : Except DecodeError Instr :=
  if cmdOpcode c = 0x01#8 then .ok .blksz
  else if cmdOpcode c = 0x02#8 then
    .ok (.enc (cmdDstAddr c) (cmdDstLen c) (cmdSrcAddr c) (cmdSrcLen c))
  else if cmdOpcode c = 0x03#8 then
    .ok (.dec (cmdDstAddr c) (cmdDstLen c) (cmdSrcAddr c) (cmdSrcLen c))
  else .error (.reservedOpcode (cmdOpcode c))

/-- The command word of an opcode and its four operands (R60). -/
def cmdWord (op : Byte) (dstAddr dstLen srcAddr srcLen : Addr) : BitVec 136 :=
  srcLen ++ srcAddr ++ dstLen ++ dstAddr ++ op

/-! ### SEQ -/

/-- The 6-bit value of a sequencer state (R63). -/
def seqWord : Seq → BitVec 6
  | .inputUnmask => 0b00#2 ++ 0#4
  | .mainRound r => 0b01#2 ++ BitVec.ofNat 4 r.val
  | .finalRound => 0b10#2 ++ 0#4
  | .done => 0b11#2 ++ 0#4

/-- `SEQ.PHASE`, bits 5 to 4 (R63). -/
def seqPhase (q : BitVec 6) : BitVec 2 := q.extractLsb' 4 2

/-- `SEQ.ROUND`, bits 3 to 0 (R63). -/
def seqRound (q : BitVec 6) : BitVec 4 := q.extractLsb' 0 4

/-- The sequencer operation a 6-bit value selects (R63, R126). -/
def decodeSeq (q : BitVec 6) : Except DecodeError Instr :=
  if seqPhase q = 0b01#2 then
    if roundOk (seqRound q) then .ok (.mainRound (seqRound q)) else .error (.noSequencerState q)
  else if seqRound q ≠ 0#4 then .error (.noSequencerState q)
  else if seqPhase q = 0b00#2 then .ok .inputUnmask
  else if seqPhase q = 0b10#2 then .ok .finalRound
  else .ok .done

/-- The sequencer state of a 6-bit value (R63). -/
def seqOfWord (q : BitVec 6) : Option Seq :=
  if seqPhase q = 0b01#2 then
    if h : (seqRound q).toNat < 9 then some (.mainRound ⟨(seqRound q).toNat, h⟩) else none
  else if seqRound q ≠ 0#4 then none
  else if seqPhase q = 0b00#2 then some .inputUnmask
  else if seqPhase q = 0b10#2 then some .finalRound
  else some .done

/-! ### DIR -/

/-- The permutation a direction bit selects (R22, R90, R91). -/
def decodeDir (d : BitVec 1) : Except DecodeError Instr :=
  if d = 0#1 then .ok .shiftrows else .ok .unshiftrows

/-! ### TADDR -/

/-- `SPACE`, bits 23 to 21 (R64). -/
def taddrSpace (a : BitVec 24) : BitVec 3 := a.extractLsb' 21 3

/-- `IDX`, bits 7 to 0 (R64). -/
def taddrIdx (a : BitVec 24) : Byte := a.extractLsb' 0 8

/-- The lookup a table address asks for, its fields taken apart; `none` where a bit outside the space's layout is
set (R64, R65). Ranges are checked by `Instr.wf`. -/
def taddrFields (a : BitVec 24) : Option Instr :=
  if taddrSpace a = 0#3 then
    if a.extractLsb' 12 9 = 0#9 then some (.get16IM (a.extractLsb' 8 4) (taddrIdx a)) else none
  else if taddrSpace a = 1#3 then
    if a.extractLsb' 17 4 = 0#4 then some (.get1IX (a.extractLsb' 12 5) (a.extractLsb' 8 4) (taddrIdx a)) else none
  else if taddrSpace a = 2#3 then
    if a.extractLsb' 16 5 = 0#5 then some (.get4TY (a.extractLsb' 12 4) (a.extractLsb' 8 4) (taddrIdx a)) else none
  else if taddrSpace a = 3#3 then
    if a.extractLsb' 19 2 = 0#2 then
      some (.get1HX (a.extractLsb' 15 4) (a.extractLsb' 10 5) (a.extractLsb' 8 2) (taddrIdx a))
    else none
  else if taddrSpace a = 4#3 then
    if a.extractLsb' 16 5 = 0#5 then some (.get4MB (a.extractLsb' 12 4) (a.extractLsb' 8 4) (taddrIdx a)) else none
  else if taddrSpace a = 5#3 then
    if a.extractLsb' 19 2 = 0#2 then
      some (.get1LX (a.extractLsb' 15 4) (a.extractLsb' 10 5) (a.extractLsb' 8 2) (taddrIdx a))
    else none
  else if taddrSpace a = 6#3 then
    if a.extractLsb' 12 9 = 0#9 then some (.get16OM (a.extractLsb' 8 4) (taddrIdx a)) else none
  else
    if a.extractLsb' 17 4 = 0#4 then some (.get1OX (a.extractLsb' 12 5) (a.extractLsb' 8 4) (taddrIdx a)) else none

/-- A table address (R64, R65); one that names no table is refused by name (R70). -/
def decodeTaddr (a : BitVec 24) : Except DecodeError Instr :=
  match taddrFields a with
  | some i => if i.wf then .ok i else .error (.noTable a)
  | none => .error (.noTable a)

/-! ### All formats -/

/-- The operation a word selects. Total: a word that selects none is refused by name. -/
def decode : CodeWord → Except DecodeError Instr
  | .cmd c => decodeCmd c
  | .seq q => decodeSeq q
  | .dir d => decodeDir d
  | .taddr a => decodeTaddr a

/-- The word of an operation; none for the eight that are "not separately decoded" (spec/30_encoding.md section 5).
The ignored operand fields of BLKSZ are zero. -/
def encode : Instr → Option CodeWord
  | .blksz => some (.cmd (cmdWord 0x01#8 0 0 0 0))
  | .enc dstAddr dstLen srcAddr srcLen => some (.cmd (cmdWord 0x02#8 dstAddr dstLen srcAddr srcLen))
  | .dec dstAddr dstLen srcAddr srcLen => some (.cmd (cmdWord 0x03#8 dstAddr dstLen srcAddr srcLen))
  | .inputUnmask => some (.seq (0b00#2 ++ 0#4))
  | .mainRound round => some (.seq (0b01#2 ++ round))
  | .finalRound => some (.seq (0b10#2 ++ 0#4))
  | .done => some (.seq (0b11#2 ++ 0#4))
  | .shiftrows => some (.dir 0#1)
  | .unshiftrows => some (.dir 1#1)
  | .get16IM pos idx => some (.taddr (0#3 ++ 0#9 ++ pos ++ idx))
  | .get1IX npos step idx => some (.taddr (1#3 ++ 0#4 ++ npos ++ step ++ idx))
  | .get4TY round pos idx => some (.taddr (2#3 ++ 0#5 ++ round ++ pos ++ idx))
  | .get1HX round npos step idx => some (.taddr (3#3 ++ 0#2 ++ round ++ npos ++ step ++ idx))
  | .get4MB round pos idx => some (.taddr (4#3 ++ 0#5 ++ round ++ pos ++ idx))
  | .get1LX round npos step idx => some (.taddr (5#3 ++ 0#2 ++ round ++ npos ++ step ++ idx))
  | .get16OM pos idx => some (.taddr (6#3 ++ 0#9 ++ pos ++ idx))
  | .get1OX npos step idx => some (.taddr (7#3 ++ 0#4 ++ npos ++ step ++ idx))
  | .perm => none
  | .expandw _ _ _ => none
  | .foldstep _ _ _ _ => none
  | .foldw _ _ _ => none
  | .column _ _ => none
  | .expandb _ => none
  | .foldb _ => none
  | .crypt _ _ => none

/-- The format of a word. -/
def CodeWord.format : CodeWord → Format
  | .cmd _ => .cmd
  | .seq _ => .seq
  | .dir _ => .dir
  | .taddr _ => .taddr

/-- The format column of spec/opcode_table.json. -/
def Instr.format : Instr → Format
  | .blksz => .cmd
  | .enc _ _ _ _ => .cmd
  | .dec _ _ _ _ => .cmd
  | .inputUnmask => .seq
  | .mainRound _ => .seq
  | .finalRound => .seq
  | .done => .seq
  | .shiftrows => .dir
  | .unshiftrows => .dir
  | .get16IM _ _ => .taddr
  | .get1IX _ _ _ => .taddr
  | .get4TY _ _ _ => .taddr
  | .get1HX _ _ _ _ => .taddr
  | .get4MB _ _ _ => .taddr
  | .get1LX _ _ _ _ => .taddr
  | .get16OM _ _ => .taddr
  | .get1OX _ _ _ => .taddr
  | .perm => .none
  | .expandw _ _ _ => .none
  | .foldstep _ _ _ _ => .none
  | .foldw _ _ _ => .none
  | .column _ _ => .none
  | .expandb _ => .none
  | .foldb _ => .none
  | .crypt _ _ => .none

/-! ### RESP and table entries -/

/-- `RESP.CODE` (R62). -/
def respCode : RespCode → Byte
  | .ok => 0x00#8
  | .illegalCommand => 0x01#8
  | .invalidInputLength => 0x02#8
  | .invalidOutputLength => 0x03#8
  | .badSlice => 0x04#8

/-- The 16-bit response word: `VALUE` in bits 15 to 8, `CODE` in bits 7 to 0 (R62). -/
def respWord (r : Resp) : BitVec 16 := r.value ++ respCode r.code

/-- The 32-bit entry of a ByteTable4: element `j` in bits `8j+7` to `8j` (R66). -/
def wordEntry (v : Word) : BitVec 32 := v[3] ++ v[2] ++ v[1] ++ v[0]

/-- The 128-bit entry of a ByteTable16: element `j` in bits `8j+7` to `8j` (R66). -/
def blockEntry (v : Block) : BitVec 128 :=
  v[15] ++ v[14] ++ v[13] ++ v[12] ++ v[11] ++ v[10] ++ v[9] ++ v[8] ++
    v[7] ++ v[6] ++ v[5] ++ v[4] ++ v[3] ++ v[2] ++ v[1] ++ v[0]

/-! ### The host's words of spec/opcode_table.json -/

/-- The word an instruction of `nbits` bits with value `w` is, bits above `nbits` zero. A whole CMD has 136 bits, a
TADDR 24, a SEQ 6, a DIR 1. In one byte (8 bits) the formats CMD, SEQ and DIR meet: a byte that is an opcode of R61
is a command with zero operands, else it is a SEQ value if it is one of the twelve (log 21). -/
def tableWord (nbits w : Nat) : Option CodeWord :=
  match nbits with
  | 1 => some (.dir (BitVec.ofNat 1 w))
  | 6 => some (.seq (BitVec.ofNat 6 w))
  | 8 =>
    if w = 1 ∨ w = 2 ∨ w = 3 then some (.cmd (BitVec.ofNat 136 w))
    else if w < 64 then some (.seq (BitVec.ofNat 6 w))
    else some (.cmd (BitVec.ofNat 136 w))
  | 24 => some (.taddr (BitVec.ofNat 24 w))
  | 136 => some (.cmd (BitVec.ofNat 136 w))
  | _ => none

/-- What the decoder reads from a word of spec/opcode_table.json. -/
def decodeTableWord (nbits w : Nat) : Option Instr :=
  match tableWord nbits w with
  | some c =>
    match decode c with
    | .ok i => some i
    | .error _ => none
  | none => none

end Sys2Proof
end

