-- ==== Sys2Proof/Machine/State.lean ====
section
/-! DEFINITION. The state of the block and of what surrounds it (spec/10_state.md, spec/70_reset_and_hazards.md R170,
spec/45_commands.md R141), as plain data, and its value after power-up. -/

namespace Sys2Proof.Machine

/-- BUF: the bytes that differ from what an unlisted address reads as, by rising address (R29, R42; log 2). -/
abbrev Memory := List Host.Cell

/-- A move of the host while the block is idle (R141): present a command, or store to its own memory (R29, R53). -/
inductive HostMove where
  | command (c : BitVec 136)
  | store (a : Addr) (v : Byte)
  deriving DecidableEq, Repr

/-- MODEL'S OWN (log 11): the selector of a unit operation issued directly to a sub-block. -/
inductive UnitReq where
  | dir (d : BitVec 1)
  | taddr (a : BitVec 24)
  deriving DecidableEq, Repr

/-- MODEL'S OWN (log 12): the result an operation that writes no state hands to whoever invoked it. -/
inductive UnitResult where
  | empty
  | block (v : Block)
  | word (v : Word)
  | nibble (v : Nibble)
  | byte (v : Byte)
  deriving DecidableEq, Repr

/-- The machine (INVENTORY.md, State). -/
@[ext]
structure State where
  /-- The working state `W` (R20). -/
  w : Block
  /-- The sequencer register `SEQ` (R21). -/
  seq : Seq
  /-- The direction latch `DIR`: 0 encryption, 1 decryption (R22). -/
  dir : BitVec 1
  /-- Command latch `DST_ADDR` (R23). -/
  dstAddr : Addr
  /-- Command latch `DST_LEN` (R23). -/
  dstLen : Addr
  /-- Command latch `SRC_ADDR` (R23). -/
  srcAddr : Addr
  /-- Command latch `SRC_LEN` (R23). -/
  srcLen : Addr
  /-- The partial-vector buffer `PB` (R26). -/
  pb : Vector Block 16
  /-- The partial-vector buffer `PW` (R26). -/
  pw : Vector Word 4
  /-- The buffer memory `BUF` (R29). -/
  buf : Memory
  /-- The response port: every response emitted so far, oldest first (R62; log 10). -/
  resp : List Resp
  /-- The host's coming moves, in order (R32, R72, R141; log 8). -/
  host : List HostMove
  /-- The reset input, one sample for each coming step; no sample, not asserted (R170; log 9). -/
  resetLine : List Bool
  /-- MODEL'S OWN: a unit operation issued directly (log 11). -/
  unitReq : Option UnitReq
  /-- MODEL'S OWN: the result of the last operation that writes no state (log 12). -/
  out : UnitResult
  /-- MODEL'S OWN: how many resets have drawn free values (log 4). -/
  fresh : Nat
  deriving DecidableEq, Repr

/-- Why the machine stops. -/
inductive Fault where
  /-- Raised by INPUT_UNMASK and FINAL_ROUND when the 16 addresses from `base` run past `2^32 - 1`, addresses that do
  not exist (R42, R48). Safe: no run reaches it, since acceptance checks the slices (R138). -/
  | bufAddress (base : Addr)
  deriving DecidableEq, Repr

/-- Why an operation has no meaning. -/
inductive Refusal where
  /-- Raised by `exec` alone, for an instruction the model gives no meaning yet. Safe. -/
  | notModelled (mnemonic : String)
  /-- Raised by the lookups, FOLDSTEP and a table address that name no table (R70, spec/93 U9). Safe. -/
  | noTable
  /-- Raised by MAIN_ROUND, COLUMN, EXPANDW and FOLDW for a round above 8, and for a SEQ value that is none of the
  twelve (R63, R70, spec/93 U9). Safe. -/
  | noRound
  deriving DecidableEq, Repr

/-- The outcome of an operation. -/
abbrev Result := Host.Outcome State Fault Refusal

/-- The machine right after reset (R31): idle in DONE with no response pending. R31 gives the other registers no
value; the model names zero for each (log 3), and the host's inputs are empty (logs 8 and 9). -/
def State.reset : State where
  w := Vector.replicate 16 0
  seq := .done
  dir := 0
  dstAddr := 0
  dstLen := 0
  srcAddr := 0
  srcLen := 0
  pb := Vector.replicate 16 (Vector.replicate 16 0)
  pw := Vector.replicate 4 (Vector.replicate 4 0)
  buf := []
  resp := []
  host := []
  resetLine := []
  unitReq := none
  out := .empty
  fresh := 0

end Sys2Proof.Machine
end

