-- ==== Sys2Proof/Machine/Operands.lean ====
section
/-! DEFINITION. The operand forms of the block: nibbles and nibble pairs (R8, R67, R68), the columns of a Block (R69),
table selectors (R65), slices (R47). -/

namespace Sys2Proof.Machine

/-! ### Nibbles -/

/-- `hi(x)`, bits 7 to 4 (R8). -/
def hi (x : Byte) : Nibble := x.extractLsb' 4 4

/-- `lo(x)`, bits 3 to 0 (R8). -/
def lo (x : Byte) : Nibble := x.extractLsb' 0 4

/-- `PAIR` of the high halves: the accumulator's nibble in the high place (R67, D24). -/
def pairHigh (acc nxt : Byte) : Byte := hi acc ++ hi nxt

/-- `PAIR` of the low halves (R67). -/
def pairLow (acc nxt : Byte) : Byte := lo acc ++ lo nxt

/-- The result byte of a fold step from its two lookups (R68). -/
def joinNibbles (high low : Nibble) : Byte := high ++ low

/-! ### Columns -/

/-- Block position `4c + r` (R69). -/
def blockPos (c r : Fin 4) : Fin 16 := ⟨4 * c.val + r.val, by omega⟩

/-- Column `c` of a Block: positions `4c` to `4c+3` (R69, C1). -/
def columnOf (b : Block) (c : Fin 4) : Word := Vector.ofFn fun r => b[blockPos c r]

/-- The Block with column `c` overwritten. -/
def withColumn (b : Block) (c : Fin 4) (v : Word) : Block :=
  Vector.ofFn fun i => if i.val / 4 = c.val then v[i.val % 4]'(Nat.mod_lt _ (by decide)) else b[i]

/-! ### Table selectors -/

/-- The round a `ROUND` field names; none from 9 up (R63, R65). -/
def roundOf (round : BitVec 4) : Option (Fin 9) :=
  if h : round.toNat < 9 then some ⟨round.toNat, h⟩ else none

/-- The step of a block fold that a `STEP` field names; none for 15 (R65). -/
def blockStepOf (step : BitVec 4) : Option (Fin 15) :=
  if h : step.toNat < 15 then some ⟨step.toNat, h⟩ else none

/-- The step of a word fold that a `STEP` field names; none for 3 (R65). -/
def wordStepOf (step : BitVec 2) : Option (Fin 3) :=
  if h : step.toNat < 3 then some ⟨step.toNat, h⟩ else none

/-- Byte position in the Block of a nibble position: `NPOS = 2*b + h` (R65). -/
def nposByte (npos : BitVec 5) : Fin 16 := (npos.extractLsb' 1 4).toFin

/-- Half of a nibble position, 0 high, 1 low (R65). -/
def nposHalf (npos : BitVec 5) : Fin 2 := (npos.extractLsb' 0 1).toFin

/-- Column of a nibble position: `NPOS = 8*c + 2*b + h` (R65). -/
def nposCol (npos : BitVec 5) : Fin 4 := (npos.extractLsb' 3 2).toFin

/-- Byte position within its column of a nibble position (R65). -/
def nposRow (npos : BitVec 5) : Fin 4 := (npos.extractLsb' 1 2).toFin

/-- The ByteTable1 a selector names in the store `T`; none where it names no table (R65, R70). -/
def nibTable (T : TableStore) : NibSel → Option (Byte → Nibble)
  | .ix npos step => (blockStepOf step).map fun s => T.ix s (nposByte npos) (nposHalf npos)
  | .ox npos step => (blockStepOf step).map fun s => T.ox s (nposByte npos) (nposHalf npos)
  | .hx round npos step =>
    match roundOf round, wordStepOf step with
    | some r, some s => some (T.hx r (nposCol npos) s (nposRow npos) (nposHalf npos))
    | _, _ => none
  | .lx round npos step =>
    match roundOf round, wordStepOf step with
    | some r, some s => some (T.lx r (nposCol npos) s (nposRow npos) (nposHalf npos))
    | _, _ => none

/-! ### Slices -/

/-- A slice is not well formed: `base + len > 2^32`, the sum taken in 33 bits (R11, R47). -/
def badSlice (base len : Addr) : Bool :=
  decide (0x100000000#33 < base.setWidth 33 + len.setWidth 33)

/-- The 16 addresses from `base` exist (R48). -/
def sixteenFit (base : Addr) : Bool := decide (base.toNat + 16 ≤ 2 ^ 32)

end Sys2Proof.Machine
end

