-- ==== Sys2Proof/Machine/Flags.lean ====
section
/-! DEFINITION. The one flag-like bit of the block, the direction latch `DIR` (R22). There are no condition codes:
"no carry, zero, sign or overflow flag". -/

namespace Sys2Proof.Machine

/-- The direction of a cipher opcode, its bit 0 (R22, R61). -/
def opcodeDir (op : Byte) : BitVec 1 := op.extractLsb' 0 1

/-- `DIR` selects decryption, UNSHIFTROWS (R22, R93). -/
def isDecryption (d : BitVec 1) : Bool := d == 1#1

end Sys2Proof.Machine
end

