-- ==== Sys2Proof/Machine/Ops.lean ====
section
/-! DEFINITION. The named operations over memory and registers: BUF (R42, R43), the register writes (R10), the response
(R62), the refusal of a command (R150, R158), the reset event (R170, R171), the host's store (R29). -/

namespace Sys2Proof.Machine

/-! ### BUF -/

/-- What a byte that nothing has written reads as (DESIGN CHOICE, unsafe; log 2). -/
def unlistedByte : Byte := 0x00#8

/-- `MemRead(addr, 1)` (R42). -/
def Memory.read : Memory → Nat → Byte
  | [], _ => unlistedByte
  | (b, u) :: rest, a => if a = b then u else Memory.read rest a

/-- `MemWrite(addr, 1, v)` (R42), keeping the canonical form. -/
def Memory.write : Memory → Nat → Byte → Memory
  | [], a, v => if v = unlistedByte then [] else [(a, v)]
  | (b, u) :: rest, a, v =>
    if a < b then (if v = unlistedByte then (b, u) :: rest else (a, v) :: (b, u) :: rest)
    else if a = b then (if v = unlistedByte then rest else (a, v) :: rest)
    else (b, u) :: Memory.write rest a v

/-- Every listed address is at least `low`. -/
def Memory.above (low : Nat) : Memory → Bool
  | [] => true
  | (a, _) :: _ => decide (low ≤ a)

/-- The canonical form: addresses below `2^32`, strictly rising, no entry equal to the unlisted byte. -/
def Memory.wf : Memory → Bool
  | [] => true
  | (a, v) :: rest => decide (a < 2 ^ 32) && (v != unlistedByte) && Memory.above (a + 1) rest && Memory.wf rest

/-- Consecutive `MemWrite`s at rising addresses (R43, R45). -/
def Memory.writeBytes : Memory → Nat → List Byte → Memory
  | m, _, [] => m
  | m, a, v :: vs => Memory.writeBytes (Memory.write m a v) (a + 1) vs

/-- The Block at `base`: position `i` from `base + i` (R43). None where the addresses run past `2^32 - 1`. -/
def loadBlock (m : Memory) (base : Addr) : Option Block :=
  if sixteenFit base then some (Vector.ofFn fun i => Memory.read m (base.toNat + i.val)) else none

/-- The memory with a Block stored at `base` (R43). None where the addresses run past `2^32 - 1`. -/
def storeBlock (m : Memory) (base : Addr) (b : Block) : Option Memory :=
  if sixteenFit base then some (Memory.writeBytes m base.toNat b.toList) else none

/-! ### Register writes -/

/-- `W <- v` (R10). -/
def State.setW (v : Block) (s : State) : State := { s with w := v }

/-- `SEQ <- q` (R10). -/
def State.setSeq (q : Seq) (s : State) : State := { s with seq := q }

/-- `PB <- v` (R26). -/
def State.setPb (v : Vector Block 16) (s : State) : State := { s with pb := v }

/-- `PW <- v` (R26). -/
def State.setPw (v : Vector Word 4) (s : State) : State := { s with pw := v }

/-- The memory after a command's or the host's writes (R29). -/
def State.setBuf (m : Memory) (s : State) : State := { s with buf := m }

/-- The result handed to the invoker (log 12). -/
def State.setOut (v : UnitResult) (s : State) : State := { s with out := v }

/-- `respond(code, value)` (R10, R62). -/
def State.respond (r : Resp) (s : State) : State := { s with resp := s.resp ++ [r] }

/-- The command latches and `DIR`, written together at acceptance (R22, R23). -/
def State.latch (d : BitVec 1) (dstAddr dstLen srcAddr srcLen : Addr) (s : State) : State :=
  { s with dir := d, dstAddr := dstAddr, dstLen := dstLen, srcAddr := srcAddr, srcLen := srcLen }

/-! ### Refusing a command: the block's only exception (R150, R158) -/

/-- The response of a fault (R150). -/
def faultResp : CmdFault → Resp
  | .illegalCommand op => ⟨.illegalCommand, op⟩
  | .invalidInputLength => ⟨.invalidInputLength, 0⟩
  | .invalidOutputLength => ⟨.invalidOutputLength, 0⟩
  | .badSlice => ⟨.badSlice, 0⟩

/-- `raise <Fault>`: "Its whole effect is the response word" (R158). There is nothing to return from (R159): the next
command is taken from the same state. -/
def State.raise (f : CmdFault) (s : State) : State := s.respond (faultResp f)

/-! ### The reset event -/

/-- Sixteen free bytes of reset number `draw` (log 4). -/
def freeBlock (draw slot : Nat) : Block := Vector.ofFn fun i => Config.freeByte draw (slot + i.val)

/-- BUF after a reset: untouched when the block is idle; when a cipher command is cut short its 16 destination bytes
hold free values (R171, U2; log 5). -/
def resetBuf (s : State) : Memory :=
  if s.seq = .done then s.buf
  else (storeBlock s.buf s.dstAddr (freeBlock s.fresh 16)).getD s.buf

/-- The reset event (R170): `SEQ <- DONE`, every other register of R20 to R26 a free value, no response, no command
taken. -/
def resetEvent (s : State) : State where
  w := freeBlock s.fresh 0
  seq := .done
  dir := Config.freeBit s.fresh
  dstAddr := Config.freeAddr s.fresh 0
  dstLen := Config.freeAddr s.fresh 1
  srcAddr := Config.freeAddr s.fresh 2
  srcLen := Config.freeAddr s.fresh 3
  pb := Vector.ofFn fun i => freeBlock s.fresh (32 + 16 * i.val)
  pw := Vector.ofFn fun i => Vector.ofFn fun j => Config.freeByte s.fresh (288 + 4 * i.val + j.val)
  buf := resetBuf s
  resp := s.resp
  host := s.host
  resetLine := s.resetLine.tail
  unitReq := none
  out := .empty
  fresh := s.fresh + 1

/-! ### What the next step takes -/

/-- What the next step does. -/
inductive Turn where
  | reset
  | hostStore (a : Addr) (v : Byte)
  | run (c : CodeWord)
  deriving DecidableEq, Repr

/-- The word of a unit request (log 11). -/
def unitWord : UnitReq → CodeWord
  | .dir d => .dir d
  | .taddr a => .taddr a

/-- What selects the next step: reset wins (R157, R170); then a unit request (log 11); else SEQ alone (R126), which in
DONE takes the host's next move (R138) and runs DONE when there is none (R124). -/
def turn (s : State) : Turn :=
  if s.resetLine.head? = some true then .reset
  else
    match s.unitReq with
    | some u => .run (unitWord u)
    | none =>
      if s.seq = .done then
        match s.host with
        | .command c :: _ => .run (.cmd c)
        | .store a v :: _ => .hostStore a v
        | [] => .run (.seq (seqWord .done))
      else .run (.seq (seqWord s.seq))

/-- The state with what the next step takes taken: the sample of the reset input, and the unit request or, in DONE, the
host's move. While SEQ is not DONE the port is not ready and the host's move stays (R138). -/
def consume (s : State) : State :=
  match s.unitReq with
  | some _ => { s with resetLine := s.resetLine.tail, unitReq := none }
  | none =>
    if s.seq = .done then { s with resetLine := s.resetLine.tail, host := s.host.tail }
    else { s with resetLine := s.resetLine.tail }

/-- The host stores a byte of its own memory (R29, R53). -/
def hostStore (a : Addr) (v : Byte) (s : State) : State := s.setBuf (Memory.write s.buf a.toNat v)

end Sys2Proof.Machine
end

