-- ==== Sys2Proof/Machine/Command.lean ====
section
/-! DEFINITION. The commands (spec/45_commands.md): acceptance (R138), BLKSZ, ENC, DEC, and the refusal of an opcode the
opcode map does not have (R151). -/

namespace Sys2Proof.Machine

/-- The acceptance procedure of R138, for an instance strapped `cap`. While SEQ is not DONE the port is not ready and
nothing is taken (log 17). -/
def acceptCommand (cap : DirCap) (op : Byte) (dstAddr dstLen srcAddr srcLen : Addr) (s : State) : State :=
  if s.seq ≠ .done then s
  else if reservedOpcode cap op then s.raise (.illegalCommand op)
  else if op = 0x01#8 then s.respond ⟨.ok, Config.blockSize⟩
  else if badSlice srcAddr srcLen || badSlice dstAddr dstLen then s.raise .badSlice
  else if srcLen < 16#32 then s.raise .invalidInputLength
  else if dstLen < 16#32 then s.raise .invalidOutputLength
  else (s.latch (opcodeDir op) dstAddr dstLen srcAddr srcLen).setSeq .inputUnmask

/-- BLKSZ (R135); its operand fields are ignored (R60). -/
def execBlksz (s : State) : Result := .next (acceptCommand Config.dircap 0x01#8 0 0 0 0 s)

/-- ENC (R136). -/
def execEnc (dstAddr dstLen srcAddr srcLen : Addr) (s : State) : Result :=
  .next (acceptCommand Config.dircap 0x02#8 dstAddr dstLen srcAddr srcLen s)

/-- DEC (R137). -/
def execDec (dstAddr dstLen srcAddr srcLen : Addr) (s : State) : Result :=
  .next (acceptCommand Config.dircap 0x03#8 dstAddr dstLen srcAddr srcLen s)

/-- A word that selects no operation: a reserved opcode is answered IllegalCommand, its operand fields not examined
(R151); a table address of no table is refused by name (R70). -/
def reject (e : DecodeError) (s : State) : Result :=
  match e with
  | .reservedOpcode op => .next (acceptCommand Config.dircap op 0 0 0 0 s)
  | .noSequencerState _ => .refused .noRound
  | .noTable _ => .refused .noTable

end Sys2Proof.Machine
end

