-- ==== Sys2Proof/Machine/Lookup.lean ====
section
/-! DEFINITION. table_lookup_engine (spec/40_table_lookup.md): GET16, GET4, GET1. A lookup reads TBL, writes no state of
the block (R83), and hands its entry to whoever asked (`out`, log 12). -/

namespace Sys2Proof.Machine

/-- GET16 (R80). -/
def get16 (t : Byte → Block) (idx : Byte) (s : State) : State := s.setOut (.block (t idx))

/-- GET4 in a table of a round; a round from 9 up names no table (R81). -/
def get4 (t : Fin 9 → Fin 16 → Byte → Word) (round pos : BitVec 4) (idx : Byte) (s : State) : Result :=
  match roundOf round with
  | some r => .next (s.setOut (.word (t r pos.toFin idx)))
  | none => .refused .noTable

/-- GET1 in the nibble table a selector names (R82). -/
def get1 (T : TableStore) (sel : NibSel) (idx : Byte) (s : State) : Result :=
  match nibTable T sel with
  | some t => .next (s.setOut (.nibble (t idx)))
  | none => .refused .noTable

/-- GET16.IM (R80). -/
def execGet16IM (pos : BitVec 4) (idx : Byte) (s : State) : Result := .next (get16 (Config.tables.im pos.toFin) idx s)

/-- GET1.IX (R82). -/
def execGet1IX (npos : BitVec 5) (step : BitVec 4) (idx : Byte) (s : State) : Result :=
  get1 Config.tables (.ix npos step) idx s

/-- GET4.TY (R81). -/
def execGet4TY (round pos : BitVec 4) (idx : Byte) (s : State) : Result := get4 Config.tables.ty round pos idx s

/-- GET1.HX (R82). -/
def execGet1HX (round : BitVec 4) (npos : BitVec 5) (step : BitVec 2) (idx : Byte) (s : State) : Result :=
  get1 Config.tables (.hx round npos step) idx s

/-- GET4.MB (R81). -/
def execGet4MB (round pos : BitVec 4) (idx : Byte) (s : State) : Result := get4 Config.tables.mb round pos idx s

/-- GET1.LX (R82). -/
def execGet1LX (round : BitVec 4) (npos : BitVec 5) (step : BitVec 2) (idx : Byte) (s : State) : Result :=
  get1 Config.tables (.lx round npos step) idx s

/-- GET16.OM (R80). -/
def execGet16OM (pos : BitVec 4) (idx : Byte) (s : State) : Result := .next (get16 (Config.tables.om pos.toFin) idx s)

/-- GET1.OX (R82). -/
def execGet1OX (npos : BitVec 5) (step : BitVec 4) (idx : Byte) (s : State) : Result :=
  get1 Config.tables (.ox npos step) idx s

end Sys2Proof.Machine
end

