-- ==== Sys2Proof/Machine/WordFold.lean ====
section
/-! DEFINITION. word_fold_4way (spec/42_word_fold.md): EXPANDW, FOLDSTEP, FOLDW, and the fold that FOLDW and FOLDB share
(R102, R111: "the 16-way generalization of 4.2's fold"). -/

namespace Sys2Proof.Machine

/-- FOLDSTEP (R101). -/
def foldStep (th tl : Byte → Nibble) (acc nxt : Byte) : Byte :=
  joinNibbles (th (pairHigh acc nxt)) (tl (pairLow acc nxt))

/-- The accumulator of a fold after its first `m` steps. It starts as partial 0, unchanged (D31); step `s` combines it
with partial `s+1` by the tables of step `s` (R102, R103, R111). -/
def foldUpTo {n k : Nat} (x : Fin k → Fin n → Fin 2 → Byte → Nibble) (q : Vector (Vector Byte n) (k + 1)) :
    (m : Nat) → m ≤ k → Vector Byte n
  | 0, _ => q[0]
  | m + 1, h =>
    Vector.ofFn fun b =>
      foldStep (x ⟨m, h⟩ b 0) (x ⟨m, h⟩ b 1) (foldUpTo x q m (Nat.le_of_succ_le h))[b] (q[m + 1])[b]

/-- The whole fold: `k` steps over `k+1` partial vectors, strictly left to right (R102, R111). -/
def fold {n k : Nat} (x : Fin k → Fin n → Fin 2 → Byte → Nibble) (q : Vector (Vector Byte n) (k + 1)) : Vector Byte n :=
  foldUpTo x q k (Nat.le_refl k)

/-- EXPANDW (R100). -/
def expandW (tab : Fin 4 → Byte → Word) (w : Word) : Vector Word 4 := Vector.ofFn fun j => tab j w[j]

/-- FOLDW (R102): three steps over four partials. -/
def foldW (x : Fin 3 → Fin 4 → Fin 2 → Byte → Nibble) (q : Vector Word 4) : Word := fold x q

/-- The four ByteTable4 of a column: positions `4c` to `4c+3` of TY (high path) or MB (low path) (R100, R122). -/
def columnTables (T : TableStore) (path : Path) (r : Fin 9) (c : Fin 4) (j : Fin 4) : Byte → Word :=
  match path with
  | .high => T.ty r (blockPos c j)
  | .low => T.mb r (blockPos c j)

/-- The nibble tables of a column's fold: HX (high path) or LX (low path) (R102, R122). -/
def columnChain (T : TableStore) (path : Path) (r : Fin 9) (c : Fin 4) : Fin 3 → Fin 4 → Fin 2 → Byte → Nibble :=
  match path with
  | .high => T.hx r c
  | .low => T.lx r c

/-- EXPANDW on column `c` of `W`, into `PW` (R26, R100). -/
def expandColumn (T : TableStore) (path : Path) (r : Fin 9) (c : Fin 4) (s : State) : State :=
  s.setPw (expandW (columnTables T path r c) (columnOf s.w c))

/-- FOLDW of `PW`, overwriting column `c` of `W` (R26, R102, R122). -/
def foldColumn (T : TableStore) (path : Path) (r : Fin 9) (c : Fin 4) (s : State) : State :=
  s.setW (withColumn s.w c (foldW (columnChain T path r c) s.pw))

/-- EXPANDW (R100). -/
def execExpandw (path : Path) (round : BitVec 4) (col : BitVec 2) (s : State) : Result :=
  match roundOf round with
  | some r => .next (expandColumn Config.tables path r col.toFin s)
  | none => .refused .noRound

/-- FOLDSTEP on two named nibble tables (R101). -/
def execFoldstep (th tl : NibSel) (acc nxt : Byte) (s : State) : Result :=
  match nibTable Config.tables th, nibTable Config.tables tl with
  | some h, some l => .next (s.setOut (.byte (foldStep h l acc nxt)))
  | _, _ => .refused .noTable

/-- FOLDW (R102). -/
def execFoldw (path : Path) (round : BitVec 4) (col : BitVec 2) (s : State) : Result :=
  match roundOf round with
  | some r => .next (foldColumn Config.tables path r col.toFin s)
  | none => .refused .noRound

end Sys2Proof.Machine
end

