-- ==== Sys2Proof/Machine/BlockFold.lean ====
section
/-! DEFINITION. nibble_xor_fold_chain (spec/43_block_fold.md): EXPANDB, FOLDB. -/

namespace Sys2Proof.Machine

/-- EXPANDB (R110). -/
def expandB (m : Fin 16 → Byte → Block) (b : Block) : Vector Block 16 := Vector.ofFn fun i => m i b[i]

/-- FOLDB (R111): fifteen steps over sixteen partials. -/
def foldB (x : Fin 15 → Fin 16 → Fin 2 → Byte → Nibble) (p : Vector Block 16) : Block := fold x p

/-- The mask tables of a side: IM or OM (R110, R112). -/
def sideTables (T : TableStore) : Side → Fin 16 → Byte → Block
  | .input => T.im
  | .output => T.om

/-- The chain of a side: IX or OX (R111, R112). -/
def sideChain (T : TableStore) : Side → Fin 15 → Fin 16 → Fin 2 → Byte → Nibble
  | .input => T.ix
  | .output => T.ox

/-- EXPANDB of `W` into `PB` (R26, R110, R112). -/
def expandBlock (T : TableStore) (side : Side) (s : State) : State := s.setPb (expandB (sideTables T side) s.w)

/-- FOLDB of `PB` into `W` (R26, R111, R112). -/
def foldBlock (T : TableStore) (side : Side) (s : State) : State := s.setW (foldB (sideChain T side) s.pb)

/-- EXPANDB (R110). -/
def execExpandb (side : Side) (s : State) : Result := .next (expandBlock Config.tables side s)

/-- FOLDB (R111). -/
def execFoldb (side : Side) (s : State) : Result := .next (foldBlock Config.tables side s)

end Sys2Proof.Machine
end

