-- ==== Sys2Proof/Machine/Permute.lean ====
section
/-! DEFINITION. block_permutation_lut (spec/41_block_permutation.md): SHIFTROWS, UNSHIFTROWS, PERM. -/

namespace Sys2Proof.Machine

/-- Row `r` shifted left by `r`: place `c` gets the element at place `(c + r) mod 4` (R90). -/
def shiftRows (b : Block) : Block :=
  Vector.ofFn fun i => b[(i.val % 4) + 4 * ((i.val / 4 + i.val % 4) % 4)]'(by omega)

/-- Row `r` shifted right by `r`: place `c` gets the element at place `(c - r) mod 4` (R91). -/
def unshiftRows (b : Block) : Block :=
  Vector.ofFn fun i => b[(i.val % 4) + 4 * ((i.val / 4 + 4 - i.val % 4) % 4)]'(by omega)

/-- `PERM(DIR, B)` (R93). -/
def permute (d : BitVec 1) (b : Block) : Block := if isDecryption d then unshiftRows b else shiftRows b

/-- `W <- PERM(DIR, W)` (R93). -/
def permW (s : State) : State := s.setW (permute s.dir s.w)

/-- SHIFTROWS on `W` (R90). -/
def execShiftrows (s : State) : Result := .next (s.setW (shiftRows s.w))

/-- UNSHIFTROWS on `W` (R91). -/
def execUnshiftrows (s : State) : Result := .next (s.setW (unshiftRows s.w))

/-- PERM (R93). -/
def execPerm (s : State) : Result := .next (permW s)

end Sys2Proof.Machine
end

