-- ==== Sys2Proof/Machine/Round.lean ====
section
/-! DEFINITION. round_state_transform (spec/44_round_transform.md): INPUT_UNMASK, MAIN_ROUND, COLUMN, FINAL_ROUND, DONE,
CRYPT. -/

namespace Sys2Proof.Machine

/-- COLUMN as a function on a Word: the high path, then the low path on its result (R122). -/
def columnWord (T : TableStore) (r : Fin 9) (c : Fin 4) (w : Word) : Word :=
  let u := foldW (T.hx r c) (expandW (columnTables T .high r c) w)
  foldW (T.lx r c) (expandW (columnTables T .low r c) u)

/-- COLUMN on column `c` of `W` (R122): each path overwrites the column. -/
def columnW (T : TableStore) (r : Fin 9) (c : Fin 4) (s : State) : State :=
  foldColumn T .low r c (expandColumn T .low r c (foldColumn T .high r c (expandColumn T .high r c s)))

/-- The successor of MAIN_ROUND(r) (R21). -/
def nextRound (r : Fin 9) : Seq := if h : r.val + 1 < 9 then .mainRound ⟨r.val + 1, h⟩ else .finalRound

/-- INPUT_UNMASK (R120). -/
def inputUnmask (T : TableStore) (s : State) : Result :=
  match loadBlock s.buf s.srcAddr with
  | some b => .next ((foldBlock T .input (expandBlock T .input (s.setW b))).setSeq (.mainRound 0))
  | none => .fault (.bufAddress s.srcAddr)

/-- MAIN_ROUND(r) (R121), the columns in the order of its pseudocode (R127, D26; log 14). -/
def mainRound (T : TableStore) (r : Fin 9) (s : State) : State :=
  (columnW T r 3 (columnW T r 2 (columnW T r 1 (columnW T r 0 (permW s))))).setSeq (nextRound r)

/-- FINAL_ROUND (R123). The response follows the last write. -/
def finalRound (T : TableStore) (s : State) : Result :=
  let t := foldBlock T .output (expandBlock T .output (permW s))
  match storeBlock t.buf t.dstAddr t.w with
  | some m => .next (((t.setBuf m).respond ⟨.ok, 0⟩).setSeq .done)
  | none => .fault (.bufAddress s.dstAddr)

/-- A main round as a function on a Block (R125). -/
def roundBlock (T : TableStore) (d : BitVec 1) (r : Fin 9) (b : Block) : Block :=
  let p := permute d b
  Vector.ofFn fun i =>
    (columnWord T r ⟨i.val / 4, by omega⟩ (columnOf p ⟨i.val / 4, by omega⟩))[i.val % 4]'(Nat.mod_lt _ (by decide))

/-- The Block after INPUT_UNMASK and the first `m` main rounds (R125). -/
def cryptRounds (T : TableStore) (d : BitVec 1) (b : Block) : (m : Nat) → m ≤ 9 → Block
  | 0, _ => foldB T.ix (expandB T.im b)
  | m + 1, h => roundBlock T d ⟨m, h⟩ (cryptRounds T d b m (Nat.le_of_succ_le h))

/-- CRYPT(T, d, S), the whole pipeline (R125). -/
def crypt (T : TableStore) (d : BitVec 1) (b : Block) : Block :=
  foldB T.ox (expandB T.om (permute d (cryptRounds T d b 9 (Nat.le_refl 9))))

/-- INPUT_UNMASK (R120). -/
def execInputUnmask (s : State) : Result := inputUnmask Config.tables s

/-- MAIN_ROUND (R121). -/
def execMainRound (round : BitVec 4) (s : State) : Result :=
  match roundOf round with
  | some r => .next (mainRound Config.tables r s)
  | none => .refused .noRound

/-- FINAL_ROUND (R123). -/
def execFinalRound (s : State) : Result := finalRound Config.tables s

/-- DONE: "the evaluator performs no operation, makes no access and changes no state" (R124). -/
def execDone (s : State) : Result := .next s

/-- COLUMN (R122). -/
def execColumn (round : BitVec 4) (col : BitVec 2) (s : State) : Result :=
  match roundOf round with
  | some r => .next (columnW Config.tables r col.toFin s)
  | none => .refused .noRound

/-- CRYPT: a function of its operands, "not an operation of its own" (R125). -/
def execCrypt (d : BitVec 1) (src : Block) (s : State) : Result := .next (s.setOut (.block (crypt Config.tables d src)))

end Sys2Proof.Machine
end

