-- ==== Sys2Proof/Machine/Dispatch.lean ====
section
/-! DEFINITION. One arm per constructor of Instr. -/

namespace Sys2Proof.Machine

/-- What each operation does. -/
def exec (i : Instr) (s : State) : Host.Outcome State Fault Refusal :=
  match i with
  | .blksz => Sys2Proof.Machine.execBlksz s
  | .enc dstAddr dstLen srcAddr srcLen => Sys2Proof.Machine.execEnc dstAddr dstLen srcAddr srcLen s
  | .dec dstAddr dstLen srcAddr srcLen => Sys2Proof.Machine.execDec dstAddr dstLen srcAddr srcLen s
  | .inputUnmask => Sys2Proof.Machine.execInputUnmask s
  | .mainRound round => Sys2Proof.Machine.execMainRound round s
  | .finalRound => Sys2Proof.Machine.execFinalRound s
  | .done => Sys2Proof.Machine.execDone s
  | .shiftrows => Sys2Proof.Machine.execShiftrows s
  | .unshiftrows => Sys2Proof.Machine.execUnshiftrows s
  | .get16IM pos idx => Sys2Proof.Machine.execGet16IM pos idx s
  | .get1IX npos step idx => Sys2Proof.Machine.execGet1IX npos step idx s
  | .get4TY round pos idx => Sys2Proof.Machine.execGet4TY round pos idx s
  | .get1HX round npos step idx => Sys2Proof.Machine.execGet1HX round npos step idx s
  | .get4MB round pos idx => Sys2Proof.Machine.execGet4MB round pos idx s
  | .get1LX round npos step idx => Sys2Proof.Machine.execGet1LX round npos step idx s
  | .get16OM pos idx => Sys2Proof.Machine.execGet16OM pos idx s
  | .get1OX npos step idx => Sys2Proof.Machine.execGet1OX npos step idx s
  | .perm => Sys2Proof.Machine.execPerm s
  | .expandw path round col => Sys2Proof.Machine.execExpandw path round col s
  | .foldstep th tl acc nxt => Sys2Proof.Machine.execFoldstep th tl acc nxt s
  | .foldw path round col => Sys2Proof.Machine.execFoldw path round col s
  | .column round col => Sys2Proof.Machine.execColumn round col s
  | .expandb side => Sys2Proof.Machine.execExpandb side s
  | .foldb side => Sys2Proof.Machine.execFoldb side s
  | .crypt dir src => Sys2Proof.Machine.execCrypt dir src s

end Sys2Proof.Machine
end

