-- ==== Sys2Proof/Machine/Step.lean ====
section
/-! DEFINITION. One step of the system: the reset event, a move of the host, or one operation of the evaluator (R126,
R138, R170). Everything it calls stands in Machine/Ops.lean, Machine/Command.lean and Decode.lean. -/

namespace Sys2Proof.Machine

/-- Run the operation a word selects, or reject the word. -/
def runWord (c : CodeWord) (s : State) : Result :=
  match decode c with
  | .ok i => exec i s
  | .error e => reject e s

/-- One step. -/
def step (s : State) : Host.Outcome State Fault Refusal :=
  match turn s with
  | .reset => .next (resetEvent s)
  | .hostStore a v => .next (hostStore a v (consume s))
  | .run c => runWord c (consume s)

/-- The state whose next step runs the word: a command as the host's next move to the idle block, a SEQ value in SEQ,
a DIR bit or a table address as a unit request (logs 8, 11, 21). -/
def withCodeWord (c : CodeWord) (s : State) : State :=
  match c with
  | .cmd c => { s with seq := .done, resetLine := [], unitReq := none, host := .command c :: s.host }
  | .seq q =>
    match seqOfWord q with
    | some .done => { s with seq := .done, resetLine := [], unitReq := none, host := [] }
    | some p => { s with seq := p, resetLine := [], unitReq := none }
    | none => s
  | .dir d => { s with resetLine := [], unitReq := some (.dir d) }
  | .taddr a => { s with resetLine := [], unitReq := some (.taddr a) }

/-- `s` with a word of spec/opcode_table.json placed where the next step takes its operation from. -/
def State.withFetchWord (s : State) (nbits w : Nat) : State :=
  match tableWord nbits w with
  | some c => withCodeWord c s
  | none => s

end Sys2Proof.Machine
end

