-- ==== Sys2Proof/Safety.lean ====
section
/-! DEFINITION. What counts as a good state (R48, R71, the canonical form of BUF), and the words the statements use for
what one step may touch. -/

namespace Sys2Proof.Machine

/-- While a cipher command is under way its latches hold slices that acceptance passed (R48, R138). -/
def State.SlicesFit (s : State) : Prop :=
  s.seq ≠ .done →
    s.srcAddr.toNat + s.srcLen.toNat ≤ 2 ^ 32 ∧ s.dstAddr.toNat + s.dstLen.toNat ≤ 2 ^ 32 ∧
      16 ≤ s.srcLen.toNat ∧ 16 ≤ s.dstLen.toNat

/-- While a cipher command is under way its direction is one the instance has (R71). -/
def State.StrapHeld (s : State) : Prop :=
  s.seq ≠ .done → (s.dir = 0#1 → Config.dircap ≠ .decOnly) ∧ (s.dir = 1#1 → Config.dircap ≠ .encOnly)

/-- The states a run can be in: BUF in canonical form, slices that fit, a direction the instance has. -/
def State.Inv (s : State) : Prop := Memory.wf s.buf = true ∧ s.SlicesFit ∧ s.StrapHeld

/-- The reset input is not asserted at the coming step. -/
def State.noReset (s : State) : Bool := s.resetLine.head? != some true

/-- Every byte of BUF reads in `t` as in `s`. -/
def sameBytes (s t : State) : Prop := ∀ a, Memory.read t.buf a = Memory.read s.buf a

/-- Every byte of BUF outside the 16 from `base` reads in `t` as in `s`. -/
def sameBytesOutside (base : Addr) (s t : State) : Prop :=
  ∀ a, (a < base.toNat ∨ base.toNat + 16 ≤ a) → Memory.read t.buf a = Memory.read s.buf a

/-- The 16 bytes BUF holds from `base`. -/
def bytesAt (m : Memory) (base : Addr) : Block := Vector.ofFn fun i => Memory.read m (base.toNat + i.val)

/-- The command latches and DIR are the same (R22, R23). -/
def sameLatches (s t : State) : Prop :=
  t.dir = s.dir ∧ t.dstAddr = s.dstAddr ∧ t.dstLen = s.dstLen ∧ t.srcAddr = s.srcAddr ∧ t.srcLen = s.srcLen

/-- The model's own fields are the same (logs 4, 11, 12). -/
def sameOwn (s t : State) : Prop := t.unitReq = s.unitReq ∧ t.out = s.out ∧ t.fresh = s.fresh

end Sys2Proof.Machine
end

