-- ==== Sys2Proof/Certificates/Slice0/Obligations.lean ====
section
/-! DEFINITION. The statements about the machine, from the numbered rules of spec/. -/

open Sys2Proof Sys2Proof.Machine

/-! ### Words -/

/-- R63: the twelve values of SEQ, the operation each selects, and the reset value. -/
def Obligations.SequencerWordsAreTheTwelve : Prop :=
  (∀ q : Sys2Proof.Seq, seqOfWord (seqWord q) = some q) ∧
  (∀ w : BitVec 6, (∃ q, seqWord q = w) ↔
    w ∈ [0x00#6, 0x10#6, 0x11#6, 0x12#6, 0x13#6, 0x14#6, 0x15#6, 0x16#6, 0x17#6, 0x18#6, 0x20#6, 0x30#6]) ∧
  seqWord .inputUnmask = 0x00#6 ∧ (∀ r : Fin 9, seqWord (.mainRound r) = 0x10#6 + BitVec.ofNat 6 r.val) ∧
  seqWord .finalRound = 0x20#6 ∧ seqWord .done = 0x30#6 ∧
  (∀ q : Sys2Proof.Seq, (seqWord q).toNat = 16 * (seqPhase (seqWord q)).toNat + (seqRound (seqWord q)).toNat) ∧
  decode (.seq 0x00#6) = .ok .inputUnmask ∧
  (∀ r : Fin 9, decode (.seq (0x10#6 + BitVec.ofNat 6 r.val)) = .ok (.mainRound (BitVec.ofNat 4 r.val))) ∧
  decode (.seq 0x20#6) = .ok .finalRound ∧ decode (.seq 0x30#6) = .ok .done ∧
  seqWord State.reset.seq = 0x30#6

/-- R60, R61: the fields of CMD by their bit positions, and the opcode map, the same for every instance. That decoding
does not look at DIRCAP is the model's choice (DESIGN CHOICE, log 23): the opcodes R71 reserves in an ENC_ONLY or
DEC_ONLY instance are refused at acceptance. -/
def Obligations.CommandWordsDecodeByTheOpcodeMap : Prop :=
  (∀ c : BitVec 136, decode (.cmd c) =
    (let field := fun at_ : Nat => BitVec.ofNat 32 (c.toNat / 2 ^ at_)
     if c.toNat % 256 = 1 then .ok .blksz
     else if c.toNat % 256 = 2 then .ok (.enc (field 8) (field 40) (field 72) (field 104))
     else if c.toNat % 256 = 3 then .ok (.dec (field 8) (field 40) (field 72) (field 104))
     else .error (.reservedOpcode (BitVec.ofNat 8 c.toNat)))) ∧
  opcodeDir 0x02#8 = 0#1 ∧ opcodeDir 0x03#8 = 1#1

/-- R60, R61, R63, R64, R65: no bit of an encoding is dropped. -/
def Obligations.DecodeOfEncodeIsTheOperation : Prop :=
  ∀ (i : Instr) (c : CodeWord), i.wf = true → encode i = some c → decode c = .ok i

/-- The other direction: a word that decodes is the encoding of what it decodes to, but for BLKSZ, whose operand
fields are ignored (R60; log 19); and only well-formed operations are decoded. -/
def Obligations.EncodeOfDecodeIsTheWord : Prop :=
  ∀ (c : CodeWord) (i : Instr), decode c = .ok i →
    i.wf = true ∧ (encode i = some c ∨ (i = .blksz ∧ ∃ w : BitVec 136, c = .cmd w ∧ w.toNat % 256 = 1))

/-- R65, R70: the table addresses that name a table are exactly those of R65's ranges; every other is refused by
name, which is the model's choice (log 18). -/
def Obligations.TableAddressesOfNoTableAreRefused : Prop :=
  ∀ a : BitVec 24,
    let space := a.toNat / 2 ^ 21
    let sel := a.toNat / 2 ^ 8 % 2 ^ 13
    let named : Prop :=
      (space = 0 ∧ sel < 16) ∨ (space = 6 ∧ sel < 16) ∨
      (space = 2 ∧ sel < 9 * 16) ∨ (space = 4 ∧ sel < 9 * 16) ∨
      (space = 1 ∧ sel < 32 * 16 ∧ sel % 16 < 15) ∨ (space = 7 ∧ sel < 32 * 16 ∧ sel % 16 < 15) ∨
      (space = 3 ∧ sel < 9 * 128 ∧ sel % 4 < 3) ∨ (space = 5 ∧ sel < 9 * 128 ∧ sel % 4 < 3)
    (named → ∃ i, decode (.taddr a) = .ok i) ∧ (¬ named → decode (.taddr a) = .error (.noTable a))

/-- R64, R65: the lookup at a table address, the address put together by the numbers of the rules, answers the entry of
the table the rules name; `out` and the request are the model's own (logs 11, 12). -/
def Obligations.TableAddressesReadTheirTables : Prop :=
  ∀ (s : State) (x : Byte),
    (∀ pos : Fin 16,
      runWord (.taddr (BitVec.ofNat 24 (0 * 2 ^ 21 + pos.val * 2 ^ 8 + x.toNat))) s =
        .next { s with out := .block (Config.tables.im pos x) } ∧
      runWord (.taddr (BitVec.ofNat 24 (6 * 2 ^ 21 + pos.val * 2 ^ 8 + x.toNat))) s =
        .next { s with out := .block (Config.tables.om pos x) }) ∧
    (∀ (r : Fin 9) (pos : Fin 16),
      runWord (.taddr (BitVec.ofNat 24 (2 * 2 ^ 21 + r.val * 2 ^ 12 + pos.val * 2 ^ 8 + x.toNat))) s =
        .next { s with out := .word (Config.tables.ty r pos x) } ∧
      runWord (.taddr (BitVec.ofNat 24 (4 * 2 ^ 21 + r.val * 2 ^ 12 + pos.val * 2 ^ 8 + x.toNat))) s =
        .next { s with out := .word (Config.tables.mb r pos x) }) ∧
    (∀ (st : Fin 15) (b : Fin 16) (h : Fin 2),
      runWord (.taddr (BitVec.ofNat 24 (1 * 2 ^ 21 + (2 * b.val + h.val) * 2 ^ 12 + st.val * 2 ^ 8 + x.toNat))) s =
        .next { s with out := .nibble (Config.tables.ix st b h x) } ∧
      runWord (.taddr (BitVec.ofNat 24 (7 * 2 ^ 21 + (2 * b.val + h.val) * 2 ^ 12 + st.val * 2 ^ 8 + x.toNat))) s =
        .next { s with out := .nibble (Config.tables.ox st b h x) }) ∧
    (∀ (r : Fin 9) (c : Fin 4) (st : Fin 3) (b : Fin 4) (h : Fin 2),
      runWord (.taddr (BitVec.ofNat 24
          (3 * 2 ^ 21 + r.val * 2 ^ 15 + (8 * c.val + 2 * b.val + h.val) * 2 ^ 10 + st.val * 2 ^ 8 + x.toNat))) s =
        .next { s with out := .nibble (Config.tables.hx r c st b h x) } ∧
      runWord (.taddr (BitVec.ofNat 24
          (5 * 2 ^ 21 + r.val * 2 ^ 15 + (8 * c.val + 2 * b.val + h.val) * 2 ^ 10 + st.val * 2 ^ 8 + x.toNat))) s =
        .next { s with out := .nibble (Config.tables.lx r c st b h x) })

/-- R66: the bit layout of a stored entry. -/
def Obligations.TableEntriesHoldElementZeroLowest : Prop :=
  (∀ (v : Block) (j : Fin 16), (blockEntry v).extractLsb' (8 * j.val) 8 = v[j]) ∧
  (∀ (v : Sys2Proof.Word) (j : Fin 4), (wordEntry v).extractLsb' (8 * j.val) 8 = v[j])

/-- R62, R151 to R154: the response word of each outcome. -/
def Obligations.ResponseWordsOfTheOutcomes : Prop :=
  (∀ r : Resp, (respWord r).toNat = 256 * r.value.toNat + (respCode r.code).toNat) ∧
  (∀ op : Byte, respWord (faultResp (.illegalCommand op)) = (op.setWidth 16 <<< 8) ||| 0x0001#16) ∧
  respWord (faultResp .invalidInputLength) = 0x0002#16 ∧ respWord (faultResp .invalidOutputLength) = 0x0003#16 ∧
  respWord (faultResp .badSlice) = 0x0004#16 ∧ respWord ⟨.ok, Config.blockSize⟩ = 0x1000#16 ∧
  respWord ⟨.ok, 0⟩ = 0x0000#16

/-- Words of the spec (95_test_vectors V1, V5; 30_encoding R63, R65) and the operations they stand for. -/
def Obligations.WordsOfTheSpecDecode : Prop :=
  decode (.cmd 0xFFFFFFFFFFFFFFFFFFFFFFFFFFFFFFFF01#136) = .ok .blksz ∧
  decode (.cmd 0x0000001400001000000000200000300002#136) = .ok (.enc 0x3000 32 0x1000 20) ∧
  decode (.cmd 0x0000001000002000000000100000100003#136) = .ok (.dec 0x1000 16 0x2000 16) ∧
  decode (.seq 0x18#6) = .ok (.mainRound 8) ∧ decode (.dir 1#1) = .ok .unshiftrows ∧
  decode (.taddr 0x0005AB#24) = .ok (.get16IM 5 0xAB) ∧ decode (.taddr 0x408FFF#24) = .ok (.get4TY 8 15 0xFF) ∧
  decode (.taddr 0x21FE12#24) = .ok (.get1IX 31 14 0x12) ∧ decode (.taddr 0x647EFF#24) = .ok (.get1HX 8 31 2 0xFF) ∧
  decode (.cmd 0x7F#136) = .error (.reservedOpcode 0x7F)

/-! ### One step -/

/-- R126, R138: the step runs the operation its word decodes to, on the state with that word (and the sample of the
reset input) taken. -/
def Obligations.StepRunsTheDecodedOperation : Prop :=
  ∀ (s : State) (i : Instr), s.noReset = true →
    (∀ u, s.unitReq = some u → decode (unitWord u) = .ok i →
      step s = exec i { s with resetLine := s.resetLine.tail, unitReq := none }) ∧
    (s.unitReq = none → s.seq ≠ .done → decode (.seq (seqWord s.seq)) = .ok i →
      step s = exec i { s with resetLine := s.resetLine.tail }) ∧
    (∀ c rest, s.unitReq = none → s.seq = .done → s.host = .command c :: rest → decode (.cmd c) = .ok i →
      step s = exec i { s with resetLine := s.resetLine.tail, host := rest }) ∧
    (s.unitReq = none → s.seq = .done → s.host = [] →
      step s = exec .done { s with resetLine := s.resetLine.tail })

/-- R138, R151 to R154, R157: what taking a command does, by the procedure of R138 over plain numbers. -/
def Obligations.StepTakesACommandByTheAcceptanceProcedure : Prop :=
  ∀ (s : State) (c : BitVec 136) (rest : List HostMove),
    s.noReset = true → s.unitReq = none → s.seq = .done → s.host = .command c :: rest →
    step s =
      (let t : State := { s with resetLine := s.resetLine.tail, host := rest }
       let op := BitVec.ofNat 8 c.toNat
       let dstAddr := BitVec.ofNat 32 (c.toNat / 2 ^ 8)
       let dstLen := BitVec.ofNat 32 (c.toNat / 2 ^ 40)
       let srcAddr := BitVec.ofNat 32 (c.toNat / 2 ^ 72)
       let srcLen := BitVec.ofNat 32 (c.toNat / 2 ^ 104)
       if (op ≠ 0x01 ∧ op ≠ 0x02 ∧ op ≠ 0x03) ∨ (op = 0x02 ∧ Config.dircap = .decOnly) ∨
           (op = 0x03 ∧ Config.dircap = .encOnly) then
         .next { t with resp := t.resp ++ [⟨.illegalCommand, op⟩] }
       else if op = 0x01 then .next { t with resp := t.resp ++ [⟨.ok, 0x10⟩] }
       else if 2 ^ 32 < srcAddr.toNat + srcLen.toNat ∨ 2 ^ 32 < dstAddr.toNat + dstLen.toNat then
         .next { t with resp := t.resp ++ [⟨.badSlice, 0⟩] }
       else if srcLen.toNat < 16 then .next { t with resp := t.resp ++ [⟨.invalidInputLength, 0⟩] }
       else if dstLen.toNat < 16 then .next { t with resp := t.resp ++ [⟨.invalidOutputLength, 0⟩] }
       else
         .next { t with
           dir := BitVec.ofNat 1 op.toNat, dstAddr := dstAddr, dstLen := dstLen, srcAddr := srcAddr,
           srcLen := srcLen, seq := .inputUnmask })

/-- R29, R141: a store of the host between commands writes its byte and nothing else (the host's moves
are the model's, log 8). -/
def Obligations.HostStoreWritesItsByte : Prop :=
  ∀ (s : State) (a : Addr) (v : Byte) (rest : List HostMove),
    Memory.wf s.buf = true → s.noReset = true → s.unitReq = none → s.seq = .done → s.host = .store a v :: rest →
    ∃ m, step s = .next { s with resetLine := s.resetLine.tail, host := rest, buf := m } ∧
      Memory.read m a.toNat = v ∧ ∀ b, b ≠ a.toNat → Memory.read m b = Memory.read s.buf b

/-- R138, R19: while a command is under way nothing the host has queued is taken, and the commands' operations change
nothing (the latter is the model's reading, log 17). -/
def Obligations.PortIsNotReadyDuringACommand : Prop :=
  ∀ s : State, s.seq ≠ .done →
    (∀ t, step s = .next t → t.host = s.host) ∧ exec .blksz s = .next s ∧
    ∀ dstAddr dstLen srcAddr srcLen, exec (.enc dstAddr dstLen srcAddr srcLen) s = .next s ∧
      exec (.dec dstAddr dstLen srcAddr srcLen) s = .next s

/-! ### Commands and their faults -/

/-- R135: BLKSZ answers 16 in every instance, whatever its operand fields. -/
def Obligations.BlkszAnswersSixteen : Prop :=
  (∀ s : State, s.seq = .done → exec .blksz s = .next { s with resp := s.resp ++ [⟨.ok, 16⟩] }) ∧
  respWord ⟨.ok, 16⟩ = 0x1000#16 ∧
  ∀ c : BitVec 136, c.toNat % 256 = 1 → decode (.cmd c) = .ok .blksz

/-- R136, R138: an ENC with slices that pass the checks is latched and started in every instance that has ENC, and is
an illegal command in one that has not. -/
def Obligations.EncIsAccepted : Prop :=
  ∀ (s : State) (dstAddr dstLen srcAddr srcLen : Addr), s.seq = .done →
    srcAddr.toNat + srcLen.toNat ≤ 2 ^ 32 → dstAddr.toNat + dstLen.toNat ≤ 2 ^ 32 →
    16 ≤ srcLen.toNat → 16 ≤ dstLen.toNat →
    exec (.enc dstAddr dstLen srcAddr srcLen) s =
      .next (if Config.dircap = .decOnly then { s with resp := s.resp ++ [⟨.illegalCommand, 0x02⟩] }
        else { s with
          dir := 0, dstAddr := dstAddr, dstLen := dstLen, srcAddr := srcAddr, srcLen := srcLen, seq := .inputUnmask })

/-- R137, R138: the same of DEC, with the direction bit 1. -/
def Obligations.DecIsAccepted : Prop :=
  ∀ (s : State) (dstAddr dstLen srcAddr srcLen : Addr), s.seq = .done →
    srcAddr.toNat + srcLen.toNat ≤ 2 ^ 32 → dstAddr.toNat + dstLen.toNat ≤ 2 ^ 32 →
    16 ≤ srcLen.toNat → 16 ≤ dstLen.toNat →
    exec (.dec dstAddr dstLen srcAddr srcLen) s =
      .next (if Config.dircap = .encOnly then { s with resp := s.resp ++ [⟨.illegalCommand, 0x03⟩] }
        else { s with
          dir := 1, dstAddr := dstAddr, dstLen := dstLen, srcAddr := srcAddr, srcLen := srcLen, seq := .inputUnmask })

/-- R151: IllegalCommand. -/
def Obligations.ReservedOpcodesAreIllegalCommands : Prop :=
  ∀ (cap : DirCap) (op : Byte) (dstAddr dstLen srcAddr srcLen : Addr) (s : State), s.seq = .done →
    (op = 0x00 ∨ 4 ≤ op.toNat ∨ (op = 0x03 ∧ cap = .encOnly) ∨ (op = 0x02 ∧ cap = .decOnly)) →
    acceptCommand cap op dstAddr dstLen srcAddr srcLen s =
      { s with resp := s.resp ++ [⟨.illegalCommand, op⟩] } ∧
    respWord ⟨.illegalCommand, op⟩ = (op.setWidth 16 <<< 8) ||| 0x01#16

/-- R154: BadSlice, before the lengths are looked at. -/
def Obligations.SlicesPastTheEndAreBad : Prop :=
  ∀ (cap : DirCap) (op : Byte) (dstAddr dstLen srcAddr srcLen : Addr) (s : State), s.seq = .done →
    ((op = 0x02 ∧ cap ≠ .decOnly) ∨ (op = 0x03 ∧ cap ≠ .encOnly)) →
    (2 ^ 32 < srcAddr.toNat + srcLen.toNat ∨ 2 ^ 32 < dstAddr.toNat + dstLen.toNat) →
    acceptCommand cap op dstAddr dstLen srcAddr srcLen s = { s with resp := s.resp ++ [⟨.badSlice, 0⟩] } ∧
    respWord ⟨.badSlice, 0⟩ = 0x0004#16

/-- R152: InvalidInputLength, after the slice check. -/
def Obligations.ShortSourcesAreRefused : Prop :=
  ∀ (cap : DirCap) (op : Byte) (dstAddr dstLen srcAddr srcLen : Addr) (s : State), s.seq = .done →
    ((op = 0x02 ∧ cap ≠ .decOnly) ∨ (op = 0x03 ∧ cap ≠ .encOnly)) →
    srcAddr.toNat + srcLen.toNat ≤ 2 ^ 32 → dstAddr.toNat + dstLen.toNat ≤ 2 ^ 32 → srcLen.toNat < 16 →
    acceptCommand cap op dstAddr dstLen srcAddr srcLen s = { s with resp := s.resp ++ [⟨.invalidInputLength, 0⟩] } ∧
    respWord ⟨.invalidInputLength, 0⟩ = 0x0002#16

/-- R153: InvalidOutputLength, after the slice check and the source-length check. -/
def Obligations.ShortDestinationsAreRefused : Prop :=
  ∀ (cap : DirCap) (op : Byte) (dstAddr dstLen srcAddr srcLen : Addr) (s : State), s.seq = .done →
    ((op = 0x02 ∧ cap ≠ .decOnly) ∨ (op = 0x03 ∧ cap ≠ .encOnly)) →
    srcAddr.toNat + srcLen.toNat ≤ 2 ^ 32 → dstAddr.toNat + dstLen.toNat ≤ 2 ^ 32 →
    16 ≤ srcLen.toNat → dstLen.toNat < 16 →
    acceptCommand cap op dstAddr dstLen srcAddr srcLen s = { s with resp := s.resp ++ [⟨.invalidOutputLength, 0⟩] } ∧
    respWord ⟨.invalidOutputLength, 0⟩ = 0x0003#16

/-- R138, R158: "Every path that responds leaves all state as it was": acceptance either emits one response and changes
nothing else, or latches a cipher command, starts it and emits none. -/
def Obligations.AcceptanceRespondsOrStarts : Prop :=
  ∀ (cap : DirCap) (op : Byte) (dstAddr dstLen srcAddr srcLen : Addr) (s : State), s.seq = .done →
    (∃ r, acceptCommand cap op dstAddr dstLen srcAddr srcLen s = { s with resp := s.resp ++ [r] }) ∨
    ((op = 0x02 ∨ op = 0x03) ∧
      acceptCommand cap op dstAddr dstLen srcAddr srcLen s =
        { s with
          dir := BitVec.ofNat 1 op.toNat, dstAddr := dstAddr, dstLen := dstLen, srcAddr := srcAddr,
          srcLen := srcLen, seq := .inputUnmask })

/-! ### Lookups -/

/-- R80: GET16, and the frame of a lookup: `out` is the model's own (log 12), no state of the block is written. -/
def Obligations.GetSixteenAnswersTheEntry : Prop :=
  ∀ (s : State) (i : Fin 16) (x : Byte),
    exec (.get16IM (BitVec.ofNat 4 i.val) x) s = .next { s with out := .block (Config.tables.im i x) } ∧
    exec (.get16OM (BitVec.ofNat 4 i.val) x) s = .next { s with out := .block (Config.tables.om i x) }

/-- R81: GET4; `out` is the model's own (log 12). -/
def Obligations.GetFourAnswersTheEntry : Prop :=
  ∀ (s : State) (r : Fin 9) (p : Fin 16) (x : Byte),
    exec (.get4TY (BitVec.ofNat 4 r.val) (BitVec.ofNat 4 p.val) x) s =
      .next { s with out := .word (Config.tables.ty r p x) } ∧
    exec (.get4MB (BitVec.ofNat 4 r.val) (BitVec.ofNat 4 p.val) x) s =
      .next { s with out := .word (Config.tables.mb r p x) }

/-- R82: GET1, the nibble position put together as in R65; `out` is the model's own (log 12). -/
def Obligations.GetOneAnswersTheEntry : Prop :=
  ∀ (s : State) (h : Fin 2) (x : Byte),
    (∀ (st : Fin 15) (b : Fin 16),
      exec (.get1IX (BitVec.ofNat 5 (2 * b.val + h.val)) (BitVec.ofNat 4 st.val) x) s =
        .next { s with out := .nibble (Config.tables.ix st b h x) } ∧
      exec (.get1OX (BitVec.ofNat 5 (2 * b.val + h.val)) (BitVec.ofNat 4 st.val) x) s =
        .next { s with out := .nibble (Config.tables.ox st b h x) }) ∧
    (∀ (r : Fin 9) (c : Fin 4) (st : Fin 3) (b : Fin 4),
      exec (.get1HX (BitVec.ofNat 4 r.val) (BitVec.ofNat 5 (8 * c.val + 2 * b.val + h.val))
          (BitVec.ofNat 2 st.val) x) s = .next { s with out := .nibble (Config.tables.hx r c st b h x) } ∧
      exec (.get1LX (BitVec.ofNat 4 r.val) (BitVec.ofNat 5 (8 * c.val + 2 * b.val + h.val))
          (BitVec.ofNat 2 st.val) x) s = .next { s with out := .nibble (Config.tables.lx r c st b h x) })

/-- Where the model stops, all of it, by name (logs 16 and 18): an operation that names a round or a table that does not
exist is refused (R70, spec/93 U9), no other is, and a fault is INPUT_UNMASK or FINAL_ROUND on 16 addresses that run past
the end of the address space (R42, R48). -/
def Obligations.OperationsStopOnlyWhereNamed : Prop :=
  ∀ (i : Instr) (s : State),
    (i.wf = false → exec i s = .refused .noTable ∨ exec i s = .refused .noRound) ∧
    (i.wf = true → ∀ r, exec i s ≠ .refused r) ∧
    ∀ f, exec i s = .fault f ↔
      (i = .inputUnmask ∧ 2 ^ 32 < s.srcAddr.toNat + 16 ∧ f = .bufAddress s.srcAddr) ∨
      (i = .finalRound ∧ 2 ^ 32 < s.dstAddr.toNat + 16 ∧ f = .bufAddress s.dstAddr)

/-! ### Permutations -/

/-- R90: SHIFTROWS, with its frame; DIR = 0 selects it. The rule gives a Block for a Block, W being the operand in the
pipeline; that the operation issued on its own overwrites W and nothing else is the model's choice (DESIGN CHOICE,
log 12). -/
def Obligations.ShiftrowsShiftsLeft : Prop :=
  (∀ s : State, ∃ b : Block, exec .shiftrows s = .next { s with w := b } ∧
    (∀ r c : Fin 4, b[r.val + 4 * c.val] = s.w[r.val + 4 * ((c.val + r.val) % 4)]) ∧
    b[0] = s.w[0] ∧ b[4] = s.w[4] ∧ b[8] = s.w[8] ∧ b[12] = s.w[12]) ∧
  (∀ v : Byte, shiftRows (Vector.replicate 16 v) = Vector.replicate 16 v) ∧
  decode (.dir 0#1) = .ok .shiftrows

/-- R91: UNSHIFTROWS, with its frame; DIR = 1 selects it. The rule gives a Block for a Block; that the operation issued
on its own overwrites W and nothing else is the model's choice (DESIGN CHOICE, log 12). -/
def Obligations.UnshiftrowsShiftsRight : Prop :=
  (∀ s : State, ∃ b : Block, exec .unshiftrows s = .next { s with w := b } ∧
    (∀ r c : Fin 4, b[r.val + 4 * c.val] = s.w[r.val + 4 * ((c.val + 4 - r.val) % 4)]) ∧
    b[0] = s.w[0] ∧ b[4] = s.w[4] ∧ b[8] = s.w[8] ∧ b[12] = s.w[12]) ∧
  decode (.dir 1#1) = .ok .unshiftrows

/-- R92: the inverse law, on Blocks, on the machine, and in index-table form. That the permutations are the index
tables SR_IDX and USR_IDX is R90's and R91's, which mark it as derived; that the two operations issued on their own act
on W is the model's choice (DESIGN CHOICE, log 12). -/
def Obligations.PermutationsAreMutualInverses : Prop :=
  (∀ b : Block, unshiftRows (shiftRows b) = b ∧ shiftRows (unshiftRows b) = b) ∧
  (∀ s t : State, (exec .shiftrows s = .next t ↔ exec .unshiftrows t = .next s)) ∧
  (let sr := [0, 5, 10, 15, 4, 9, 14, 3, 8, 13, 2, 7, 12, 1, 6, 11]
   let usr := [0, 13, 10, 7, 4, 1, 14, 11, 8, 5, 2, 15, 12, 9, 6, 3]
   ∀ i : Fin 16, sr[usr[i.val]!]! = i.val ∧ usr[sr[i.val]!]! = i.val ∧
     ∀ b : Block, (shiftRows b)[i] = b[sr[i.val]!]! ∧ (unshiftRows b)[i] = b[usr[i.val]!]!)

/-- R93: PERM is SHIFTROWS for DIR = 0 and UNSHIFTROWS for DIR = 1. -/
def Obligations.PermIsChosenByTheDirection : Prop :=
  ∀ s : State, (s.dir = 0#1 → exec .perm s = .next { s with w := shiftRows s.w }) ∧
    (s.dir = 1#1 → exec .perm s = .next { s with w := unshiftRows s.w })

/-! ### Word and block folds -/

/-- R100: EXPANDW, on the registers of R26 (the model's reading, log 13). -/
def Obligations.ExpandwLooksUpEachByte : Prop :=
  ∀ (s : State) (r : Fin 9) (c : Fin 4),
    (∃ q, exec (.expandw .high (BitVec.ofNat 4 r.val) (BitVec.ofNat 2 c.val)) s = .next { s with pw := q } ∧
      ∀ j : Fin 4, q[j] = Config.tables.ty r (blockPos c j) s.w[4 * c.val + j.val]) ∧
    (∃ q, exec (.expandw .low (BitVec.ofNat 4 r.val) (BitVec.ofNat 2 c.val)) s = .next { s with pw := q } ∧
      ∀ j : Fin 4, q[j] = Config.tables.mb r (blockPos c j) s.w[4 * c.val + j.val])

/-- R67, R68, R101: FOLDSTEP, by the masks and shifts of the rules; `out` is the model's own (log 12). -/
def Obligations.FoldstepPacksLooksUpAndJoins : Prop :=
  ∀ (s : State) (th tl : NibSel) (acc nxt : Byte), th.wf = true → tl.wf = true →
    ∃ high low, nibTable Config.tables th = some high ∧ nibTable Config.tables tl = some low ∧
    exec (.foldstep th tl acc nxt) s =
      (let ph := (acc &&& 0xF0#8) ||| (nxt >>> 4)
       let pl := ((acc &&& 0x0F#8) <<< 4) ||| (nxt &&& 0x0F#8)
       .next { s with out := .byte (((high ph).setWidth 8 <<< 4) ||| (low pl).setWidth 8) })

/-- R102: FOLDW, `(((p0 ∘ p1) ∘ p2) ∘ p3)` at each byte position, overwriting the column (registers: the
model's reading, log 13). -/
def Obligations.FoldwFoldsLeftToRight : Prop :=
  ∀ (s : State) (path : Sys2Proof.Path) (r : Fin 9) (c : Fin 4),
    ∃ b : Block, exec (.foldw path (BitVec.ofNat 4 r.val) (BitVec.ofNat 2 c.val)) s = .next { s with w := b } ∧
      (∀ j : Fin 4,
        let x := match path with
          | .high => Config.tables.hx r c
          | .low => Config.tables.lx r c
        let op := fun (st : Fin 3) (acc nxt : Byte) => foldStep (x st j 0) (x st j 1) acc nxt
        b[4 * c.val + j.val] = op 2 (op 1 (op 0 (s.pw[0])[j] (s.pw[1])[j]) (s.pw[2])[j]) (s.pw[3])[j]) ∧
      ∀ i : Fin 16, i.val / 4 ≠ c.val → b[i] = s.w[i]

/-- R104: in a fold of any size the byte positions are independent lanes and so are the two halves of each byte
(the spec marks this as derived). -/
def Obligations.FoldLanesAreIndependent : Prop :=
  ∀ (n k : Nat) (x y : Fin k → Fin n → Fin 2 → Byte → Nibble) (p q : Vector (Vector Byte n) (k + 1)) (b : Fin n),
    ((∀ st, x st b 0 = y st b 0) → (∀ j : Fin (k + 1), hi (p[j])[b] = hi (q[j])[b]) →
      hi (fold x p)[b] = hi (fold y q)[b]) ∧
    ((∀ st, x st b 1 = y st b 1) → (∀ j : Fin (k + 1), lo (p[j])[b] = lo (q[j])[b]) →
      lo (fold x p)[b] = lo (fold y q)[b])

/-- R102, R111: with plain exclusive-or tables a fold is the byte-wise exclusive-or of the partials. -/
def Obligations.ExclusiveOrTablesFoldToExclusiveOr : Prop :=
  ∀ (n k : Nat) (q : Vector (Vector Byte n) (k + 1)) (b : Fin n),
    (fold (fun _ _ _ x => hi x ^^^ lo x) q)[b] = (q.toList.map fun v => v[b]).foldl (· ^^^ ·) 0#8

/-- R110: EXPANDB, on the registers of R26 (the model's reading, log 13). -/
def Obligations.ExpandbLooksUpEachByte : Prop :=
  ∀ s : State,
    (∃ p, exec (.expandb .input) s = .next { s with pb := p } ∧ ∀ i : Fin 16, p[i] = Config.tables.im i s.w[i]) ∧
    (∃ p, exec (.expandb .output) s = .next { s with pb := p } ∧ ∀ i : Fin 16, p[i] = Config.tables.om i s.w[i])

/-- R111: FOLDB, fifteen steps strictly left to right, the accumulator starting as partial 0 (registers: the model's
reading, log 13). -/
def Obligations.FoldbFoldsLeftToRight : Prop :=
  ∀ (s : State) (side : Side), ∃ acc : Nat → Block,
    exec (.foldb side) s = .next { s with w := acc 15 } ∧ acc 0 = s.pb[0] ∧
    ∀ (st : Fin 15) (b : Fin 16),
      let x := match side with
        | .input => Config.tables.ix
        | .output => Config.tables.ox
      (acc (st.val + 1))[b] = foldStep (x st b 0) (x st b 1) (acc st.val)[b] (s.pb[st.val + 1])[b]

/-! ### The sequencer operations -/

/-- R120: INPUT_UNMASK, with its frame. R120 lists W and SEQ as written; that PB still holds the partials afterwards
(R26, R110) is the model's reading (DEDUCED, log 14). -/
def Obligations.InputUnmaskReadsExpandsAndFolds : Prop :=
  ∀ s : State, s.srcAddr.toNat + 16 ≤ 2 ^ 32 →
    exec .inputUnmask s = .next { s with
      w := foldB Config.tables.ix (expandB Config.tables.im (bytesAt s.buf s.srcAddr)),
      pb := expandB Config.tables.im (bytesAt s.buf s.srcAddr), seq := .mainRound 0 }

/-- R122: COLUMN: the high path, then the low path on its result; the other columns are not touched
(registers: the model's reading, log 13). -/
def Obligations.ColumnTakesTheHighThenTheLowPath : Prop :=
  ∀ (s : State) (r : Fin 9) (c : Fin 4), ∃ (b : Block) (q : Vector Sys2Proof.Word 4),
    exec (.column (BitVec.ofNat 4 r.val) (BitVec.ofNat 2 c.val)) s = .next { s with w := b, pw := q } ∧
    (let u := foldW (Config.tables.hx r c) (expandW (fun j => Config.tables.ty r (blockPos c j)) (columnOf s.w c))
     q = expandW (fun j => Config.tables.mb r (blockPos c j)) u ∧
     columnOf b c = foldW (Config.tables.lx r c) q) ∧
    ∀ d : Fin 4, d ≠ c → columnOf b d = columnOf s.w d

/-- R121: MAIN_ROUND(r): the permutation first, on the whole of W, then COLUMN on each column of the permuted state;
the successor by the round counter. PW is scratch (R26). -/
def Obligations.MainRoundPermutesThenTransformsColumns : Prop :=
  ∀ (s : State) (r : Fin 9), ∃ (b : Block) (q : Vector Sys2Proof.Word 4) (p : Sys2Proof.Seq),
    exec (.mainRound (BitVec.ofNat 4 r.val)) s = .next { s with w := b, pw := q, seq := p } ∧
    (∀ c : Fin 4, columnOf b c = columnWord Config.tables r c (columnOf (permute s.dir s.w) c)) ∧
    (if r.val < 8 then seqWord p = 0x11#6 + BitVec.ofNat 6 r.val else p = .finalRound)

/-- R123: FINAL_ROUND, with its frame: the 16 bytes at DST_ADDR are the new W, every other byte is as before, and the
response is OK. R123 lists W, the 16 bytes and SEQ as written; that PB still holds the partials
afterwards (R26, R110) is the model's reading (DEDUCED, log 14). -/
def Obligations.FinalRoundWritesTheBlockAndResponds : Prop :=
  ∀ s : State, Memory.wf s.buf = true → s.dstAddr.toNat + 16 ≤ 2 ^ 32 → ∃ (b : Block) (p : Vector Block 16) (m : Memory),
    exec .finalRound s =
      .next { s with w := b, pb := p, buf := m, resp := s.resp ++ [⟨.ok, 0⟩], seq := .done } ∧
    p = expandB Config.tables.om (permute s.dir s.w) ∧ b = foldB Config.tables.ox p ∧
    (∀ i : Fin 16, Memory.read m (s.dstAddr.toNat + i.val) = b[i]) ∧
    ∀ a, (a < s.dstAddr.toNat ∨ s.dstAddr.toNat + 16 ≤ a) → Memory.read m a = Memory.read s.buf a

/-- R124: DONE performs no operation; a step in DONE with nothing from the host changes nothing of the block. -/
def Obligations.DoneChangesNothing : Prop :=
  (∀ s : State, exec .done s = .next s) ∧
  ∀ s : State, s.seq = .done → s.unitReq = none → s.host = [] → s.noReset = true →
    step s = .next { s with resetLine := s.resetLine.tail }

/-- Sections 2b and 5 of the spec's operation map: the composite operations are their units, one after the other, on W,
PB and PW (the model's reading, logs 13 and 14). -/
def Obligations.CompositeOperationsInvokeTheirUnits : Prop :=
  (∀ (s : State) (r : Fin 9), ∃ s0 s1 s2 s3 s4 p,
    exec .perm s = .next s0 ∧ exec (.column (BitVec.ofNat 4 r.val) 0) s0 = .next s1 ∧
    exec (.column (BitVec.ofNat 4 r.val) 1) s1 = .next s2 ∧ exec (.column (BitVec.ofNat 4 r.val) 2) s2 = .next s3 ∧
    exec (.column (BitVec.ofNat 4 r.val) 3) s3 = .next s4 ∧
    exec (.mainRound (BitVec.ofNat 4 r.val)) s = .next { s4 with seq := p }) ∧
  (∀ (s : State) (r : Fin 9) (c : Fin 4), ∃ s1 s2 s3 s4,
    exec (.expandw .high (BitVec.ofNat 4 r.val) (BitVec.ofNat 2 c.val)) s = .next s1 ∧
    exec (.foldw .high (BitVec.ofNat 4 r.val) (BitVec.ofNat 2 c.val)) s1 = .next s2 ∧
    exec (.expandw .low (BitVec.ofNat 4 r.val) (BitVec.ofNat 2 c.val)) s2 = .next s3 ∧
    exec (.foldw .low (BitVec.ofNat 4 r.val) (BitVec.ofNat 2 c.val)) s3 = .next s4 ∧
    exec (.column (BitVec.ofNat 4 r.val) (BitVec.ofNat 2 c.val)) s = .next s4) ∧
  (∀ s : State, s.srcAddr.toNat + 16 ≤ 2 ^ 32 → ∃ s1 s2,
    exec (.expandb .input) { s with w := bytesAt s.buf s.srcAddr } = .next s1 ∧ exec (.foldb .input) s1 = .next s2 ∧
    exec .inputUnmask s = .next { s2 with seq := .mainRound 0 })

/-- R127: the COLUMN passes of different columns commute (the spec marks this as derived). -/
def Obligations.ColumnsCommute : Prop :=
  ∀ (s : State) (r : Fin 9) (c d : Fin 4), c ≠ d → ∃ s1 s2 t1 t2,
    exec (.column (BitVec.ofNat 4 r.val) (BitVec.ofNat 2 c.val)) s = .next s1 ∧
    exec (.column (BitVec.ofNat 4 r.val) (BitVec.ofNat 2 d.val)) s1 = .next s2 ∧
    exec (.column (BitVec.ofNat 4 r.val) (BitVec.ofNat 2 d.val)) s = .next t1 ∧
    exec (.column (BitVec.ofNat 4 r.val) (BitVec.ofNat 2 c.val)) t1 = .next t2 ∧ s2.w = t2.w

/-- R125: CRYPT as the stages of its pseudocode; its result is handed over in the model's own `out` (log 12). -/
def Obligations.CryptIsThePipeline : Prop :=
  ∀ (s : State) (d : BitVec 1) (src : Block), ∃ x : Nat → Block,
    x 0 = foldB Config.tables.ix (expandB Config.tables.im src) ∧
    (∀ r c, columnOf (x (r.val + 1)) c = columnWord Config.tables r c (columnOf (permute d (x r.val)) c)) ∧
    exec (.crypt d src) s =
      .next { s with out := .block (foldB Config.tables.ox (expandB Config.tables.om (permute d (x 9)))) }

/-! ### Rules of the whole machine -/

/-- R21, R126: while a command is under way each step writes SEQ with its fixed successor; no data value has a say. -/
def Obligations.SequencerFollowsItsFixedOrder : Prop :=
  ∀ s t : State, s.noReset = true → s.unitReq = none → s.seq ≠ .done → step s = .next t →
    seqWord t.seq = (if s.seq = .inputUnmask then 0x10#6
      else if s.seq = .mainRound 8 then 0x20#6
      else if s.seq = .finalRound then 0x30#6
      else seqWord s.seq + 1)

/-- R21: "`DONE -> INPUT_UNMASK` only when an ENC or DEC command is accepted". -/
def Obligations.DoneIsLeftOnlyByAnAcceptedCipherCommand : Prop :=
  ∀ s t : State, s.seq = .done → step s = .next t → t.seq ≠ .done →
    t.seq = .inputUnmask ∧ ∃ c rest, s.host = .command c :: rest ∧ (c.toNat % 256 = 2 ∨ c.toNat % 256 = 3) ∧
      t.resp = s.resp

/-- R40, R48: no operation but FINAL_ROUND writes BUF. -/
def Obligations.OnlyFinalRoundWritesTheBuffer : Prop :=
  ∀ (i : Instr) (s t : State), i ≠ .finalRound → exec i s = .next t → sameBytes s t

/-- R20: no operation but the three sequencer operations and the units they invoke on W writes W. -/
def Obligations.OnlyTheDatapathWritesTheWorkingState : Prop :=
  ∀ (i : Instr) (s t : State), exec i s = .next t →
    (match i with
      | .inputUnmask | .mainRound _ | .finalRound | .shiftrows | .unshiftrows | .perm | .foldw _ _ _ | .column _ _
      | .foldb _ => True
      | _ => t.w = s.w)

/-- R22, R23: DIR and the four latches are written together by the acceptance of an ENC or DEC and by no operation
otherwise. -/
def Obligations.LatchesAreWrittenOnlyAtAcceptance : Prop :=
  ∀ (i : Instr) (s t : State), exec i s = .next t →
    sameLatches s t ∨
    ∃ dstAddr dstLen srcAddr srcLen, s.seq = .done ∧ t.seq = .inputUnmask ∧
      ((i = .enc dstAddr dstLen srcAddr srcLen ∧ t.dir = 0) ∨ (i = .dec dstAddr dstLen srcAddr srcLen ∧ t.dir = 1)) ∧
      t.dstAddr = dstAddr ∧ t.dstLen = dstLen ∧ t.srcAddr = srcAddr ∧ t.srcLen = srcLen

/-- R62, R138: a step emits at most one response, and emits one exactly when it ends a cipher command (FINAL_ROUND) or
takes a command that it does not start. -/
def Obligations.OneResponsePerCommand : Prop :=
  ∀ s t : State, s.noReset = true → s.unitReq = none → step s = .next t →
    let answered : Prop :=
      s.seq = .finalRound ∨ (s.seq = .done ∧ t.seq = .done ∧ ∃ c rest, s.host = .command c :: rest)
    (answered → ∃ r, t.resp = s.resp ++ [r]) ∧ (¬ answered → t.resp = s.resp)

/-- R170, R171: the reset event, in every state: SEQ is DONE, no response, no command taken, BUF untouched but for the
16 destination bytes of a command cut short. What the registers and those bytes hold is a free value. -/
def Obligations.ResetIdlesTheBlock : Prop :=
  ∀ s : State, Memory.wf s.buf = true → s.noReset = false → ∃ t,
    step s = .next t ∧ t.seq = .done ∧ t.resp = s.resp ∧ t.host = s.host ∧ t.unitReq = none ∧ t.fresh = s.fresh + 1 ∧ (∀ i : Fin 16, t.w[i] = Config.freeByte s.fresh i.val) ∧
    (s.seq = .done → sameBytes s t) ∧ sameBytesOutside s.dstAddr s t ∧
    (s.seq ≠ .done → s.dstAddr.toNat + 16 ≤ 2 ^ 32 →
      ∀ i : Fin 16, Memory.read t.buf (s.dstAddr.toNat + i.val) = Config.freeByte s.fresh (16 + i.val))

/-- R31, R170: the values the spec gives for reset; the first step from it idles. (What W and the latches hold at
State.reset is the model's choice, log 3, and is not stated.) -/
def Obligations.ResetStateIsIdle : Prop :=
  State.reset.seq = .done ∧ State.reset.resp = [] ∧ Config.blockSize = 16#8 ∧ step State.reset = .next State.reset

/-- The canonical form makes equal memories equal data (log 2). -/
def Obligations.CanonicalMemoryIsItsBytes : Prop :=
  ∀ m n : Memory, Memory.wf m = true → Memory.wf n = true → (∀ a, Memory.read m a = Memory.read n a) → m = n

/-- State.reset meets the invariant. -/
def Obligations.ResetMeetsTheInvariant : Prop := State.reset.Inv

/-- R48, R71: every step keeps the canonical form of BUF, the slices of the command under way and the strap. -/
def Obligations.EveryStepKeepsTheInvariant : Prop :=
  ∀ s t : State, s.Inv → step s = .next t → t.Inv

/-- R150: "No operation after acceptance can fault": from a state of the invariant with no unit request the machine
always has a next state, and no step makes a unit request (log 11). -/
def Obligations.EveryStepFromTheInvariantCompletes : Prop :=
  ∀ s : State, s.Inv → s.unitReq = none → ∃ t, step s = .next t ∧ t.Inv ∧ t.unitReq = none

/-- R125, R126: a cipher command once accepted runs its eleven sequencer operations and writes CRYPT(T, DIR, S) to the
destination, S the source bytes before the first of them, however the two ranges overlap. -/
def Obligations.AcceptedCommandWritesCrypt : Prop :=
  ∀ s : State, Memory.wf s.buf = true → s.seq = .inputUnmask → s.unitReq = none → s.resetLine = [] →
    s.srcAddr.toNat + 16 ≤ 2 ^ 32 → s.dstAddr.toNat + 16 ≤ 2 ^ 32 →
    ∃ t, core.run 11 s = .next t ∧ bytesAt t.buf s.dstAddr = crypt Config.tables s.dir (bytesAt s.buf s.srcAddr) ∧
      sameBytesOutside s.dstAddr s t ∧ t.w = crypt Config.tables s.dir (bytesAt s.buf s.srcAddr) ∧
      t.resp = s.resp ++ [⟨.ok, 0⟩] ∧ t.seq = .done ∧ t.host = s.host ∧ sameLatches s t ∧ sameOwn s t

/-- R136: the net effect of ENC over twelve steps; in an instance without ENC the one response of R151. -/
def Obligations.EncNetEffect : Prop :=
  ∀ (s : State) (dstAddr dstLen srcAddr srcLen : Addr) (rest : List HostMove),
    Memory.wf s.buf = true → s.seq = .done → s.unitReq = none → s.resetLine = [] →
    s.host = .command (cmdWord 0x02 dstAddr dstLen srcAddr srcLen) :: rest →
    srcAddr.toNat + srcLen.toNat ≤ 2 ^ 32 → dstAddr.toNat + dstLen.toNat ≤ 2 ^ 32 →
    16 ≤ srcLen.toNat → 16 ≤ dstLen.toNat →
    if Config.dircap = .decOnly then
      step s = .next { s with host := rest, resp := s.resp ++ [⟨.illegalCommand, 0x02⟩] }
    else
      ∃ t, core.run 12 s = .next t ∧ bytesAt t.buf dstAddr = crypt Config.tables 0 (bytesAt s.buf srcAddr) ∧
        sameBytesOutside dstAddr s t ∧ t.resp = s.resp ++ [⟨.ok, 0⟩] ∧ t.seq = .done ∧ t.dir = 0 ∧
        t.dstAddr = dstAddr ∧ t.dstLen = dstLen ∧ t.srcAddr = srcAddr ∧ t.srcLen = srcLen ∧ t.host = rest ∧ sameOwn s t

/-- R137: the same of DEC. -/
def Obligations.DecNetEffect : Prop :=
  ∀ (s : State) (dstAddr dstLen srcAddr srcLen : Addr) (rest : List HostMove),
    Memory.wf s.buf = true → s.seq = .done → s.unitReq = none → s.resetLine = [] →
    s.host = .command (cmdWord 0x03 dstAddr dstLen srcAddr srcLen) :: rest →
    srcAddr.toNat + srcLen.toNat ≤ 2 ^ 32 → dstAddr.toNat + dstLen.toNat ≤ 2 ^ 32 →
    16 ≤ srcLen.toNat → 16 ≤ dstLen.toNat →
    if Config.dircap = .encOnly then
      step s = .next { s with host := rest, resp := s.resp ++ [⟨.illegalCommand, 0x03⟩] }
    else
      ∃ t, core.run 12 s = .next t ∧ bytesAt t.buf dstAddr = crypt Config.tables 1 (bytesAt s.buf srcAddr) ∧
        sameBytesOutside dstAddr s t ∧ t.resp = s.resp ++ [⟨.ok, 0⟩] ∧ t.seq = .done ∧ t.dir = 1 ∧
        t.dstAddr = dstAddr ∧ t.dstLen = dstLen ∧ t.srcAddr = srcAddr ∧ t.srcLen = srcLen ∧ t.host = rest ∧ sameOwn s t

/-- R139, R140: two commands under way with the same direction and the same source bytes write the same block and give
the same response, whatever else the two states hold and however their ranges overlap (the
spec marks both as derived). -/
def Obligations.OutcomeDependsOnTheSourceBytesAlone : Prop :=
  ∀ s u : State, Memory.wf s.buf = true → Memory.wf u.buf = true → s.seq = .inputUnmask → u.seq = .inputUnmask →
    s.unitReq = none → u.unitReq = none → s.resetLine = [] → u.resetLine = [] → s.srcAddr.toNat + 16 ≤ 2 ^ 32 → s.dstAddr.toNat + 16 ≤ 2 ^ 32 →
    u.srcAddr.toNat + 16 ≤ 2 ^ 32 → u.dstAddr.toNat + 16 ≤ 2 ^ 32 → s.dir = u.dir →
    bytesAt s.buf s.srcAddr = bytesAt u.buf u.srcAddr →
    ∃ t v r, core.run 11 s = .next t ∧ core.run 11 u = .next v ∧
      bytesAt t.buf s.dstAddr = bytesAt v.buf u.dstAddr ∧ t.resp = s.resp ++ [r] ∧ v.resp = u.resp ++ [r]
end

