-- ==== Sys2Proof/Laws/State.lean ====
section
/-! SUPPORT. What each named register write does to each field of State, one lemma a field. -/

namespace Sys2Proof.Machine

section
variable (v : Block) (s : State)
@[simp] theorem State.setW_w : (s.setW v).w = v := rfl
@[simp] theorem State.setW_seq : (s.setW v).seq = s.seq := rfl
@[simp] theorem State.setW_dir : (s.setW v).dir = s.dir := rfl
@[simp] theorem State.setW_dstAddr : (s.setW v).dstAddr = s.dstAddr := rfl
@[simp] theorem State.setW_dstLen : (s.setW v).dstLen = s.dstLen := rfl
@[simp] theorem State.setW_srcAddr : (s.setW v).srcAddr = s.srcAddr := rfl
@[simp] theorem State.setW_srcLen : (s.setW v).srcLen = s.srcLen := rfl
@[simp] theorem State.setW_pb : (s.setW v).pb = s.pb := rfl
@[simp] theorem State.setW_pw : (s.setW v).pw = s.pw := rfl
@[simp] theorem State.setW_buf : (s.setW v).buf = s.buf := rfl
@[simp] theorem State.setW_resp : (s.setW v).resp = s.resp := rfl
@[simp] theorem State.setW_host : (s.setW v).host = s.host := rfl
@[simp] theorem State.setW_resetLine : (s.setW v).resetLine = s.resetLine := rfl
@[simp] theorem State.setW_unitReq : (s.setW v).unitReq = s.unitReq := rfl
@[simp] theorem State.setW_out : (s.setW v).out = s.out := rfl
@[simp] theorem State.setW_fresh : (s.setW v).fresh = s.fresh := rfl
end

section
variable (q : Seq) (s : State)
@[simp] theorem State.setSeq_w : (s.setSeq q).w = s.w := rfl
@[simp] theorem State.setSeq_seq : (s.setSeq q).seq = q := rfl
@[simp] theorem State.setSeq_dir : (s.setSeq q).dir = s.dir := rfl
@[simp] theorem State.setSeq_dstAddr : (s.setSeq q).dstAddr = s.dstAddr := rfl
@[simp] theorem State.setSeq_dstLen : (s.setSeq q).dstLen = s.dstLen := rfl
@[simp] theorem State.setSeq_srcAddr : (s.setSeq q).srcAddr = s.srcAddr := rfl
@[simp] theorem State.setSeq_srcLen : (s.setSeq q).srcLen = s.srcLen := rfl
@[simp] theorem State.setSeq_pb : (s.setSeq q).pb = s.pb := rfl
@[simp] theorem State.setSeq_pw : (s.setSeq q).pw = s.pw := rfl
@[simp] theorem State.setSeq_buf : (s.setSeq q).buf = s.buf := rfl
@[simp] theorem State.setSeq_resp : (s.setSeq q).resp = s.resp := rfl
@[simp] theorem State.setSeq_host : (s.setSeq q).host = s.host := rfl
@[simp] theorem State.setSeq_resetLine : (s.setSeq q).resetLine = s.resetLine := rfl
@[simp] theorem State.setSeq_unitReq : (s.setSeq q).unitReq = s.unitReq := rfl
@[simp] theorem State.setSeq_out : (s.setSeq q).out = s.out := rfl
@[simp] theorem State.setSeq_fresh : (s.setSeq q).fresh = s.fresh := rfl
end

section
variable (v : Vector Block 16) (s : State)
@[simp] theorem State.setPb_w : (s.setPb v).w = s.w := rfl
@[simp] theorem State.setPb_seq : (s.setPb v).seq = s.seq := rfl
@[simp] theorem State.setPb_dir : (s.setPb v).dir = s.dir := rfl
@[simp] theorem State.setPb_dstAddr : (s.setPb v).dstAddr = s.dstAddr := rfl
@[simp] theorem State.setPb_dstLen : (s.setPb v).dstLen = s.dstLen := rfl
@[simp] theorem State.setPb_srcAddr : (s.setPb v).srcAddr = s.srcAddr := rfl
@[simp] theorem State.setPb_srcLen : (s.setPb v).srcLen = s.srcLen := rfl
@[simp] theorem State.setPb_pb : (s.setPb v).pb = v := rfl
@[simp] theorem State.setPb_pw : (s.setPb v).pw = s.pw := rfl
@[simp] theorem State.setPb_buf : (s.setPb v).buf = s.buf := rfl
@[simp] theorem State.setPb_resp : (s.setPb v).resp = s.resp := rfl
@[simp] theorem State.setPb_host : (s.setPb v).host = s.host := rfl
@[simp] theorem State.setPb_resetLine : (s.setPb v).resetLine = s.resetLine := rfl
@[simp] theorem State.setPb_unitReq : (s.setPb v).unitReq = s.unitReq := rfl
@[simp] theorem State.setPb_out : (s.setPb v).out = s.out := rfl
@[simp] theorem State.setPb_fresh : (s.setPb v).fresh = s.fresh := rfl
end

section
variable (v : Vector Word 4) (s : State)
@[simp] theorem State.setPw_w : (s.setPw v).w = s.w := rfl
@[simp] theorem State.setPw_seq : (s.setPw v).seq = s.seq := rfl
@[simp] theorem State.setPw_dir : (s.setPw v).dir = s.dir := rfl
@[simp] theorem State.setPw_dstAddr : (s.setPw v).dstAddr = s.dstAddr := rfl
@[simp] theorem State.setPw_dstLen : (s.setPw v).dstLen = s.dstLen := rfl
@[simp] theorem State.setPw_srcAddr : (s.setPw v).srcAddr = s.srcAddr := rfl
@[simp] theorem State.setPw_srcLen : (s.setPw v).srcLen = s.srcLen := rfl
@[simp] theorem State.setPw_pb : (s.setPw v).pb = s.pb := rfl
@[simp] theorem State.setPw_pw : (s.setPw v).pw = v := rfl
@[simp] theorem State.setPw_buf : (s.setPw v).buf = s.buf := rfl
@[simp] theorem State.setPw_resp : (s.setPw v).resp = s.resp := rfl
@[simp] theorem State.setPw_host : (s.setPw v).host = s.host := rfl
@[simp] theorem State.setPw_resetLine : (s.setPw v).resetLine = s.resetLine := rfl
@[simp] theorem State.setPw_unitReq : (s.setPw v).unitReq = s.unitReq := rfl
@[simp] theorem State.setPw_out : (s.setPw v).out = s.out := rfl
@[simp] theorem State.setPw_fresh : (s.setPw v).fresh = s.fresh := rfl
end

section
variable (m : Memory) (s : State)
@[simp] theorem State.setBuf_w : (s.setBuf m).w = s.w := rfl
@[simp] theorem State.setBuf_seq : (s.setBuf m).seq = s.seq := rfl
@[simp] theorem State.setBuf_dir : (s.setBuf m).dir = s.dir := rfl
@[simp] theorem State.setBuf_dstAddr : (s.setBuf m).dstAddr = s.dstAddr := rfl
@[simp] theorem State.setBuf_dstLen : (s.setBuf m).dstLen = s.dstLen := rfl
@[simp] theorem State.setBuf_srcAddr : (s.setBuf m).srcAddr = s.srcAddr := rfl
@[simp] theorem State.setBuf_srcLen : (s.setBuf m).srcLen = s.srcLen := rfl
@[simp] theorem State.setBuf_pb : (s.setBuf m).pb = s.pb := rfl
@[simp] theorem State.setBuf_pw : (s.setBuf m).pw = s.pw := rfl
@[simp] theorem State.setBuf_buf : (s.setBuf m).buf = m := rfl
@[simp] theorem State.setBuf_resp : (s.setBuf m).resp = s.resp := rfl
@[simp] theorem State.setBuf_host : (s.setBuf m).host = s.host := rfl
@[simp] theorem State.setBuf_resetLine : (s.setBuf m).resetLine = s.resetLine := rfl
@[simp] theorem State.setBuf_unitReq : (s.setBuf m).unitReq = s.unitReq := rfl
@[simp] theorem State.setBuf_out : (s.setBuf m).out = s.out := rfl
@[simp] theorem State.setBuf_fresh : (s.setBuf m).fresh = s.fresh := rfl
end

section
variable (v : UnitResult) (s : State)
@[simp] theorem State.setOut_w : (s.setOut v).w = s.w := rfl
@[simp] theorem State.setOut_seq : (s.setOut v).seq = s.seq := rfl
@[simp] theorem State.setOut_dir : (s.setOut v).dir = s.dir := rfl
@[simp] theorem State.setOut_dstAddr : (s.setOut v).dstAddr = s.dstAddr := rfl
@[simp] theorem State.setOut_dstLen : (s.setOut v).dstLen = s.dstLen := rfl
@[simp] theorem State.setOut_srcAddr : (s.setOut v).srcAddr = s.srcAddr := rfl
@[simp] theorem State.setOut_srcLen : (s.setOut v).srcLen = s.srcLen := rfl
@[simp] theorem State.setOut_pb : (s.setOut v).pb = s.pb := rfl
@[simp] theorem State.setOut_pw : (s.setOut v).pw = s.pw := rfl
@[simp] theorem State.setOut_buf : (s.setOut v).buf = s.buf := rfl
@[simp] theorem State.setOut_resp : (s.setOut v).resp = s.resp := rfl
@[simp] theorem State.setOut_host : (s.setOut v).host = s.host := rfl
@[simp] theorem State.setOut_resetLine : (s.setOut v).resetLine = s.resetLine := rfl
@[simp] theorem State.setOut_unitReq : (s.setOut v).unitReq = s.unitReq := rfl
@[simp] theorem State.setOut_out : (s.setOut v).out = v := rfl
@[simp] theorem State.setOut_fresh : (s.setOut v).fresh = s.fresh := rfl
end

section
variable (r : Resp) (s : State)
@[simp] theorem State.respond_w : (s.respond r).w = s.w := rfl
@[simp] theorem State.respond_seq : (s.respond r).seq = s.seq := rfl
@[simp] theorem State.respond_dir : (s.respond r).dir = s.dir := rfl
@[simp] theorem State.respond_dstAddr : (s.respond r).dstAddr = s.dstAddr := rfl
@[simp] theorem State.respond_dstLen : (s.respond r).dstLen = s.dstLen := rfl
@[simp] theorem State.respond_srcAddr : (s.respond r).srcAddr = s.srcAddr := rfl
@[simp] theorem State.respond_srcLen : (s.respond r).srcLen = s.srcLen := rfl
@[simp] theorem State.respond_pb : (s.respond r).pb = s.pb := rfl
@[simp] theorem State.respond_pw : (s.respond r).pw = s.pw := rfl
@[simp] theorem State.respond_buf : (s.respond r).buf = s.buf := rfl
@[simp] theorem State.respond_resp : (s.respond r).resp = s.resp ++ [r] := rfl
@[simp] theorem State.respond_host : (s.respond r).host = s.host := rfl
@[simp] theorem State.respond_resetLine : (s.respond r).resetLine = s.resetLine := rfl
@[simp] theorem State.respond_unitReq : (s.respond r).unitReq = s.unitReq := rfl
@[simp] theorem State.respond_out : (s.respond r).out = s.out := rfl
@[simp] theorem State.respond_fresh : (s.respond r).fresh = s.fresh := rfl
end

section
variable (f : CmdFault) (s : State)
@[simp] theorem State.raise_w : (s.raise f).w = s.w := rfl
@[simp] theorem State.raise_seq : (s.raise f).seq = s.seq := rfl
@[simp] theorem State.raise_dir : (s.raise f).dir = s.dir := rfl
@[simp] theorem State.raise_dstAddr : (s.raise f).dstAddr = s.dstAddr := rfl
@[simp] theorem State.raise_dstLen : (s.raise f).dstLen = s.dstLen := rfl
@[simp] theorem State.raise_srcAddr : (s.raise f).srcAddr = s.srcAddr := rfl
@[simp] theorem State.raise_srcLen : (s.raise f).srcLen = s.srcLen := rfl
@[simp] theorem State.raise_pb : (s.raise f).pb = s.pb := rfl
@[simp] theorem State.raise_pw : (s.raise f).pw = s.pw := rfl
@[simp] theorem State.raise_buf : (s.raise f).buf = s.buf := rfl
@[simp] theorem State.raise_resp : (s.raise f).resp = s.resp ++ [faultResp f] := rfl
@[simp] theorem State.raise_host : (s.raise f).host = s.host := rfl
@[simp] theorem State.raise_resetLine : (s.raise f).resetLine = s.resetLine := rfl
@[simp] theorem State.raise_unitReq : (s.raise f).unitReq = s.unitReq := rfl
@[simp] theorem State.raise_out : (s.raise f).out = s.out := rfl
@[simp] theorem State.raise_fresh : (s.raise f).fresh = s.fresh := rfl
end

section
variable (d : BitVec 1) (da dl sa sl : Addr) (s : State)
@[simp] theorem State.latch_w : (s.latch d da dl sa sl).w = s.w := rfl
@[simp] theorem State.latch_seq : (s.latch d da dl sa sl).seq = s.seq := rfl
@[simp] theorem State.latch_dir : (s.latch d da dl sa sl).dir = d := rfl
@[simp] theorem State.latch_dstAddr : (s.latch d da dl sa sl).dstAddr = da := rfl
@[simp] theorem State.latch_dstLen : (s.latch d da dl sa sl).dstLen = dl := rfl
@[simp] theorem State.latch_srcAddr : (s.latch d da dl sa sl).srcAddr = sa := rfl
@[simp] theorem State.latch_srcLen : (s.latch d da dl sa sl).srcLen = sl := rfl
@[simp] theorem State.latch_pb : (s.latch d da dl sa sl).pb = s.pb := rfl
@[simp] theorem State.latch_pw : (s.latch d da dl sa sl).pw = s.pw := rfl
@[simp] theorem State.latch_buf : (s.latch d da dl sa sl).buf = s.buf := rfl
@[simp] theorem State.latch_resp : (s.latch d da dl sa sl).resp = s.resp := rfl
@[simp] theorem State.latch_host : (s.latch d da dl sa sl).host = s.host := rfl
@[simp] theorem State.latch_resetLine : (s.latch d da dl sa sl).resetLine = s.resetLine := rfl
@[simp] theorem State.latch_unitReq : (s.latch d da dl sa sl).unitReq = s.unitReq := rfl
@[simp] theorem State.latch_out : (s.latch d da dl sa sl).out = s.out := rfl
@[simp] theorem State.latch_fresh : (s.latch d da dl sa sl).fresh = s.fresh := rfl
end

end Sys2Proof.Machine
end

