-- ==== Sys2Proof/Laws/Datapath.lean ====
section
/-! SUPPORT. The datapath functions element by element: columns of a Block, the permutations, the expansions and the
folds; and what each state operation of the datapath does. -/

namespace Sys2Proof.Machine

theorem columnOf_get (b : Block) (c r : Fin 4) : (columnOf b c)[r] = b[blockPos c r] := by
  simp [columnOf]

/-- A Block is its four columns. -/
theorem block_ext_columns {a b : Block} (h : ∀ c, columnOf a c = columnOf b c) : a = b := by
  apply Vector.ext
  intro i hi
  have e := congrArg (fun v : Word => v[i % 4]'(Nat.mod_lt _ (by decide))) (h ⟨i / 4, by omega⟩)
  simp only [columnOf, Vector.getElem_ofFn, blockPos, Fin.getElem_fin] at e
  simpa [Nat.div_add_mod] using e

theorem columnOf_withColumn (b : Block) (c d : Fin 4) (v : Word) :
    columnOf (withColumn b c v) d = if d = c then v else columnOf b d := by
  apply Vector.ext
  intro r hr
  have h1 : (4 * d.val + r) / 4 = d.val := by omega
  have h2 : (4 * d.val + r) % 4 = r := by omega
  by_cases h : d = c
  · subst h
    simp [columnOf, withColumn, blockPos, h1, Nat.mod_eq_of_lt hr]
  · simp [columnOf, withColumn, blockPos, h, h1, Fin.val_ne_of_ne h]

@[simp] theorem shiftRows_get (b : Block) (i : Fin 16) :
    (shiftRows b)[i] = b[(i.val % 4) + 4 * ((i.val / 4 + i.val % 4) % 4)]'(by omega) := by
  simp [shiftRows]

@[simp] theorem unshiftRows_get (b : Block) (i : Fin 16) :
    (unshiftRows b)[i] = b[(i.val % 4) + 4 * ((i.val / 4 + 4 - i.val % 4) % 4)]'(by omega) := by
  simp [unshiftRows]

@[simp] theorem expandW_get (tab : Fin 4 → Byte → Word) (w : Word) (j : Fin 4) : (expandW tab w)[j] = tab j w[j] := by
  simp [expandW]

@[simp] theorem expandB_get (m : Fin 16 → Byte → Block) (b : Block) (i : Fin 16) : (expandB m b)[i] = m i b[i] := by
  simp [expandB]

theorem foldUpTo_zero {n k : Nat} (x : Fin k → Fin n → Fin 2 → Byte → Nibble) (q : Vector (Vector Byte n) (k + 1))
    (h : 0 ≤ k) : foldUpTo x q 0 h = q[0] := rfl

/-- One step of a fold, at one byte position. -/
theorem foldUpTo_succ_get {n k : Nat} (x : Fin k → Fin n → Fin 2 → Byte → Nibble)
    (q : Vector (Vector Byte n) (k + 1)) (m : Nat) (h : m + 1 ≤ k) (b : Fin n) :
    (foldUpTo x q (m + 1) h)[b] =
      foldStep (x ⟨m, h⟩ b 0) (x ⟨m, h⟩ b 1) (foldUpTo x q m (Nat.le_of_succ_le h))[b] (q[m + 1])[b] := by
  simp [foldUpTo]

@[simp] theorem hi_joinNibbles (a b : Nibble) : hi (joinNibbles a b) = a := by
  revert a b
  decide +kernel

@[simp] theorem lo_joinNibbles (a b : Nibble) : lo (joinNibbles a b) = b := by
  revert a b
  decide +kernel

theorem roundOf_eq_some {round : BitVec 4} {r : Fin 9} : roundOf round = some r ↔ round = BitVec.ofNat 4 r.val := by
  constructor
  · intro h
    unfold roundOf at h
    split at h
    · obtain rfl := Option.some.inj h
      simp
    · exact absurd h (by simp)
  · rintro rfl
    revert r
    decide

@[simp] theorem roundOf_ofNat (r : Fin 9) : roundOf (BitVec.ofNat 4 r.val) = some r := roundOf_eq_some.mpr rfl

/-- `roundOk` is exactly the rounds that `roundOf` names. -/
theorem roundOf_isSome (round : BitVec 4) : (roundOf round).isSome = roundOk round := by
  unfold roundOf roundOk
  split <;> simp_all

/-- `NibSel.wf` is exactly the selectors that name a table. -/
theorem nibTable_isSome (T : TableStore) (sel : NibSel) : (nibTable T sel).isSome = sel.wf := by
  have round (r : BitVec 4) : roundOk r = (roundOf r).isSome := (roundOf_isSome r).symm
  have word (s : BitVec 2) : wordStepOk s = (wordStepOf s).isSome := by
    unfold wordStepOf wordStepOk
    split <;> simp_all
  have block (s : BitVec 4) : blockStepOk s = (blockStepOf s).isSome := by
    unfold blockStepOf blockStepOk
    split <;> simp_all
  cases sel with
  | ix npos step => simp [nibTable, NibSel.wf, block]
  | ox npos step => simp [nibTable, NibSel.wf, block]
  | hx r npos step =>
    simp only [nibTable, NibSel.wf, round, word]
    cases roundOf r <;> cases wordStepOf step <;> rfl
  | lx r npos step =>
    simp only [nibTable, NibSel.wf, round, word]
    cases roundOf r <;> cases wordStepOf step <;> rfl

theorem columnTables_high (T : TableStore) (r : Fin 9) (c : Fin 4) :
    columnTables T .high r c = fun j => T.ty r (blockPos c j) := rfl

theorem columnTables_low (T : TableStore) (r : Fin 9) (c : Fin 4) :
    columnTables T .low r c = fun j => T.mb r (blockPos c j) := rfl

@[simp] theorem columnOf_withColumn_same (b : Block) (c : Fin 4) (v : Word) : columnOf (withColumn b c v) c = v := by
  simp [columnOf_withColumn]

theorem withColumn_withColumn (b : Block) (c : Fin 4) (u v : Word) :
    withColumn (withColumn b c u) c v = withColumn b c v := by
  apply block_ext_columns
  intro d
  by_cases h : d = c <;> simp [columnOf_withColumn, h]

/-- COLUMN on the state: everything it changes (R122). -/
theorem columnW_eq (T : TableStore) (r : Fin 9) (c : Fin 4) (s : State) :
    columnW T r c s = { s with
      w := withColumn s.w c (columnWord T r c (columnOf s.w c))
      pw := expandW (columnTables T .low r c)
        (foldW (T.hx r c) (expandW (columnTables T .high r c) (columnOf s.w c))) } := by
  simp only [columnW, foldColumn, expandColumn, State.setW, State.setPw, columnOf_withColumn_same, columnChain,
    columnWord, withColumn_withColumn]

theorem columnW_w (T : TableStore) (r : Fin 9) (c d : Fin 4) (s : State) :
    columnOf (columnW T r c s).w d = if d = c then columnWord T r c (columnOf s.w c) else columnOf s.w d := by
  rw [columnW_eq, columnOf_withColumn]

/-- The columns of a main round's Block (R121, R125). -/
theorem columnOf_roundBlock (T : TableStore) (d : BitVec 1) (r : Fin 9) (b : Block) (c : Fin 4) :
    columnOf (roundBlock T d r b) c = columnWord T r c (columnOf (permute d b) c) := by
  have key : ∀ (c' : Fin 4) (k : Nat) (hk : k < 4), c' = c → k < 4 →
      (columnWord T r c' (columnOf (permute d b) c'))[k] = (columnWord T r c (columnOf (permute d b) c))[k] := by
    rintro c' k hk rfl _
    rfl
  apply Vector.ext
  intro i hi
  simp only [columnOf, roundBlock, Vector.getElem_ofFn, blockPos, Fin.getElem_fin,
    show (4 * c.val + i) % 4 = i by omega]
  exact key _ _ _ (Fin.ext (by simp; omega)) hi

section
variable (T : TableStore) (r : Fin 9) (c : Fin 4) (s : State)
@[simp] theorem columnW_seq : (columnW T r c s).seq = s.seq := by
  rw [columnW_eq]
@[simp] theorem columnW_dir : (columnW T r c s).dir = s.dir := by
  rw [columnW_eq]
@[simp] theorem columnW_dstAddr : (columnW T r c s).dstAddr = s.dstAddr := by
  rw [columnW_eq]
@[simp] theorem columnW_dstLen : (columnW T r c s).dstLen = s.dstLen := by
  rw [columnW_eq]
@[simp] theorem columnW_srcAddr : (columnW T r c s).srcAddr = s.srcAddr := by
  rw [columnW_eq]
@[simp] theorem columnW_srcLen : (columnW T r c s).srcLen = s.srcLen := by
  rw [columnW_eq]
@[simp] theorem columnW_pb : (columnW T r c s).pb = s.pb := by
  rw [columnW_eq]
@[simp] theorem columnW_buf : (columnW T r c s).buf = s.buf := by
  rw [columnW_eq]
@[simp] theorem columnW_resp : (columnW T r c s).resp = s.resp := by
  rw [columnW_eq]
@[simp] theorem columnW_host : (columnW T r c s).host = s.host := by
  rw [columnW_eq]
@[simp] theorem columnW_resetLine : (columnW T r c s).resetLine = s.resetLine := by
  rw [columnW_eq]
@[simp] theorem columnW_unitReq : (columnW T r c s).unitReq = s.unitReq := by
  rw [columnW_eq]
@[simp] theorem columnW_out : (columnW T r c s).out = s.out := by
  rw [columnW_eq]
@[simp] theorem columnW_fresh : (columnW T r c s).fresh = s.fresh := by
  rw [columnW_eq]
end

/-- W after the four columns of a main round. -/
theorem mainRound_w (T : TableStore) (r : Fin 9) (s : State) : (mainRound T r s).w = roundBlock T s.dir r s.w := by
  apply block_ext_columns
  intro c
  rw [columnOf_roundBlock]
  simp only [mainRound, State.setSeq_w, columnW_w, permW, State.setW_w]
  fin_cases c <;> rfl

/-- MAIN_ROUND on the state: W is the main round of R125, PW is scratch, SEQ its successor, nothing else changes. -/
theorem mainRound_eq (T : TableStore) (r : Fin 9) (s : State) :
    mainRound T r s = { s with
      w := roundBlock T s.dir r s.w, pw := (mainRound T r s).pw, seq := nextRound r } := by
  apply State.ext
  case w => exact mainRound_w T r s
  case pw => rfl
  all_goals simp [mainRound, permW]

end Sys2Proof.Machine
end

