-- ==== Sys2Proof/Laws/Memory.lean ====
section
/-! SUPPORT. BUF: what a read answers after a write, and that every memory operation keeps the canonical form. -/

namespace Sys2Proof.Machine

@[simp] theorem Memory.read_nil (a : Nat) : Memory.read [] a = unlistedByte := rfl

theorem Memory.read_cons (b : Nat) (u : Byte) (rest : Memory) (a : Nat) :
    Memory.read ((b, u) :: rest) a = if a = b then u else Memory.read rest a := rfl

/-- A memory whose addresses all lie above `a` reads the unlisted byte at `a`. -/
theorem Memory.read_of_above {m : Memory} {a low : Nat} (hwf : Memory.wf m = true)
    (h : Memory.above low m = true) (ha : a < low) : Memory.read m a = unlistedByte := by
  induction m generalizing low with
  | nil => rfl
  | cons p rest ih =>
    obtain ⟨b, u⟩ := p
    simp only [Memory.wf, Memory.above, Bool.and_eq_true, decide_eq_true_eq] at hwf h
    rw [Memory.read_cons, if_neg (by omega)]
    exact ih hwf.2 hwf.1.2 (by omega)

/-- A read after a write to a canonical memory: the byte written at its address, the old byte elsewhere. -/
theorem Memory.read_write {m : Memory} (hwf : Memory.wf m = true) (a : Nat) (v : Byte) (b : Nat) :
    Memory.read (Memory.write m a v) b = if b = a then v else Memory.read m b := by
  induction m with
  | nil => by_cases h : v = unlistedByte <;> by_cases hb : b = a <;> simp [Memory.write, Memory.read, h, hb]
  | cons p rest ih =>
    obtain ⟨c, u⟩ := p
    have hc := hwf
    simp only [Memory.wf, Bool.and_eq_true, decide_eq_true_eq] at hwf
    by_cases h1 : a < c
    · have hr : Memory.read ((c, u) :: rest) a = unlistedByte :=
        Memory.read_of_above (low := c) hc (by simp [Memory.above]) h1
      by_cases hv : v = unlistedByte
      · simp only [Memory.write, h1, hv, if_true]
        split
        · next h => rw [h, hr]
        · rfl
      · simp only [Memory.write, h1, hv, if_true, if_false]
        rw [Memory.read_cons]
    · by_cases h2 : a = c
      · subst h2
        have hr : Memory.read rest a = unlistedByte := Memory.read_of_above hwf.2 hwf.1.2 (by omega)
        by_cases hv : v = unlistedByte
        · simp only [Memory.write, lt_irrefl, hv, if_true, if_false]
          rw [Memory.read_cons]
          split
          · next h => rw [h, hr]
          · rfl
        · simp only [Memory.write, lt_irrefl, hv, if_true, if_false]
          simp only [Memory.read_cons]
          split <;> rfl
      · simp only [Memory.write, h1, h2, if_false]
        rw [Memory.read_cons, ih hwf.2, Memory.read_cons]
        by_cases hb : b = c
        · simp [hb, Ne.symm h2]
        · simp [hb]

/-- A write at or above `low` leaves every address at or above `low`. -/
theorem Memory.above_write {m : Memory} {low : Nat} (hwf : Memory.wf m = true) (h : Memory.above low m = true)
    {a : Nat} (ha : low ≤ a) (v : Byte) : Memory.above low (Memory.write m a v) = true := by
  cases m with
  | nil => by_cases hv : v = unlistedByte <;> simp [Memory.write, Memory.above, hv, ha]
  | cons p rest =>
    obtain ⟨c, u⟩ := p
    simp only [Memory.above, Memory.wf, Bool.and_eq_true, decide_eq_true_eq] at h hwf
    by_cases h1 : a < c
    · by_cases hv : v = unlistedByte <;> simp [Memory.write, Memory.above, h1, hv, ha, h]
    · by_cases h2 : a = c
      · by_cases hv : v = unlistedByte
        · simp only [Memory.write, h2, lt_irrefl, hv, if_true, if_false]
          cases rest with
          | nil => rfl
          | cons q rest' =>
            have := hwf.1.2
            simp only [Memory.above, decide_eq_true_eq] at this ⊢
            omega
        · simp [Memory.write, Memory.above, h2, hv, h]
      · simp [Memory.write, Memory.above, h1, h2, h]

/-- A write at an existing address keeps the canonical form. -/
theorem Memory.wf_write {m : Memory} (hwf : Memory.wf m = true) {a : Nat} (ha : a < 2 ^ 32) (v : Byte) :
    Memory.wf (Memory.write m a v) = true := by
  induction m with
  | nil =>
    by_cases hv : v = unlistedByte
    · simp [Memory.write, Memory.wf, hv]
    · simp only [Memory.write, hv, if_false, Memory.wf, Memory.above, Bool.and_true, Bool.and_eq_true,
        decide_eq_true_eq, bne_iff_ne]
      exact ⟨ha, hv⟩
  | cons p rest ih =>
    obtain ⟨c, u⟩ := p
    have hc := hwf
    simp only [Memory.wf, Bool.and_eq_true, decide_eq_true_eq, bne_iff_ne] at hwf
    by_cases h1 : a < c
    · by_cases hv : v = unlistedByte
      · simpa only [Memory.write, h1, hv, if_true] using hc
      · simp only [Memory.write, h1, hv, if_true, if_false]
        simp only [Memory.wf, Memory.above, Bool.and_eq_true, decide_eq_true_eq, bne_iff_ne]
        exact ⟨⟨⟨ha, hv⟩, h1⟩, hwf⟩
    · by_cases h2 : a = c
      · by_cases hv : v = unlistedByte
        · simpa only [Memory.write, h2, lt_irrefl, hv, if_true, if_false] using hwf.2
        · simp only [Memory.write, h2, lt_irrefl, hv, if_true, if_false]
          simp only [Memory.wf, Bool.and_eq_true, decide_eq_true_eq, bne_iff_ne]
          exact ⟨⟨⟨hwf.1.1.1, hv⟩, hwf.1.2⟩, hwf.2⟩
      · simp only [Memory.write, h1, h2, if_false]
        simp only [Memory.wf, Bool.and_eq_true, decide_eq_true_eq, bne_iff_ne]
        exact ⟨⟨hwf.1.1, Memory.above_write hwf.2 hwf.1.2 (by omega) v⟩, ih hwf.2⟩

/-- Consecutive writes of existing addresses keep the canonical form. -/
theorem Memory.wf_writeBytes {m : Memory} (hwf : Memory.wf m = true) (vs : List Byte) (a : Nat)
    (ha : a + vs.length ≤ 2 ^ 32) : Memory.wf (Memory.writeBytes m a vs) = true := by
  induction vs generalizing m a with
  | nil => exact hwf
  | cons v vs ih =>
    simp only [List.length_cons] at ha
    exact ih (Memory.wf_write hwf (by omega) v) (a + 1) (by omega)

/-- A read after consecutive writes. -/
theorem Memory.read_writeBytes {m : Memory} (hwf : Memory.wf m = true) (vs : List Byte) (a : Nat)
    (ha : a + vs.length ≤ 2 ^ 32) (b : Nat) :
    Memory.read (Memory.writeBytes m a vs) b =
      if h : a ≤ b ∧ b - a < vs.length then vs[b - a]'h.2 else Memory.read m b := by
  induction vs generalizing m a with
  | nil => simp [Memory.writeBytes]
  | cons v vs ih =>
    simp only [List.length_cons] at ha
    rw [Memory.writeBytes, ih (Memory.wf_write hwf (by omega) v) (a + 1) (by omega), Memory.read_write hwf]
    by_cases hb : b = a
    · subst hb
      simp
    · by_cases h : a + 1 ≤ b ∧ b - (a + 1) < vs.length
      · obtain ⟨j, rfl⟩ : ∃ j, b = a + 1 + j := ⟨b - (a + 1), by omega⟩
        have h' : a ≤ a + 1 + j ∧ a + 1 + j - a < (v :: vs).length := by rw [List.length_cons]; omega
        rw [dif_pos h, dif_pos h']
        simp only [show a + 1 + j - a = j + 1 by omega, List.getElem_cons_succ, Nat.add_sub_cancel_left]
      · have h' : ¬ (a ≤ b ∧ b - a < (v :: vs).length) := by rw [List.length_cons]; omega
        rw [dif_neg h, dif_neg h', if_neg hb]

/-- What a stored Block reads as: its bytes at its 16 addresses, the old bytes elsewhere; the form is kept. -/
theorem storeBlock_spec {m m' : Memory} {base : Addr} {b : Block} (hwf : Memory.wf m = true)
    (h : storeBlock m base b = some m') :
    Memory.wf m' = true ∧ (∀ i : Fin 16, Memory.read m' (base.toNat + i.val) = b[i]) ∧
      ∀ a, (a < base.toNat ∨ base.toNat + 16 ≤ a) → Memory.read m' a = Memory.read m a := by
  unfold storeBlock at h
  split at h
  · next hf =>
    have hfit : base.toNat + b.toList.length ≤ 2 ^ 32 := by simpa [sixteenFit] using hf
    obtain rfl := Option.some.inj h
    refine ⟨Memory.wf_writeBytes hwf _ _ hfit, fun i => ?_, fun a ha => ?_⟩
    · rw [Memory.read_writeBytes hwf _ _ hfit]
      have : base.toNat ≤ base.toNat + i.val ∧ base.toNat + i.val - base.toNat < b.toList.length := by
        simp
      rw [dif_pos this]
      simp
    · rw [Memory.read_writeBytes hwf _ _ hfit]
      rw [dif_neg (by simp; omega)]
  · exact absurd h (by simp)

theorem storeBlock_isSome (m : Memory) (base : Addr) (b : Block) :
    (storeBlock m base b).isSome = sixteenFit base := by
  unfold storeBlock
  split <;> simp_all

theorem loadBlock_isSome (m : Memory) (base : Addr) : (loadBlock m base).isSome = sixteenFit base := by
  unfold loadBlock
  split <;> simp_all

end Sys2Proof.Machine
end

