-- ==== Sys2Proof/Laws/Operations.lean ====
section
/-! SUPPORT. One lemma for each shared operation: what it answers, on the state it is given; and what selects a step. -/

namespace Sys2Proof.Machine

/-! ### Acceptance (R138) -/

/-- The slice check over plain numbers (R47). -/
theorem badSlice_iff (base len : Addr) : badSlice base len = true ↔ 2 ^ 32 < base.toNat + len.toNat := by
  have := base.isLt
  have := len.isLt
  simp only [badSlice, decide_eq_true_eq, BitVec.lt_def, BitVec.toNat_add, BitVec.toNat_setWidth, BitVec.toNat_ofNat]
  omega

theorem shorter_iff (len : Addr) : len < 16#32 ↔ len.toNat < 16 := by
  simp [BitVec.lt_def]

/-- The opcode check in words (R61, R71). -/
theorem reservedOpcode_iff (cap : DirCap) (op : Byte) :
    reservedOpcode cap op = true ↔
      (op ≠ 0x01 ∧ op ≠ 0x02 ∧ op ≠ 0x03) ∨ (op = 0x02 ∧ cap = .decOnly) ∨ (op = 0x03 ∧ cap = .encOnly) := by
  cases cap <;> revert op <;> decide +kernel

section
variable {cap : DirCap} {op : Byte} {dstAddr dstLen srcAddr srcLen : Addr} {s : State}

theorem acceptCommand_underway (h : s.seq ≠ .done) : acceptCommand cap op dstAddr dstLen srcAddr srcLen s = s := by
  simp [acceptCommand, h]

theorem acceptCommand_reserved (hs : s.seq = .done) (h : reservedOpcode cap op = true) :
    acceptCommand cap op dstAddr dstLen srcAddr srcLen s = s.respond ⟨.illegalCommand, op⟩ := by
  simp [acceptCommand, hs, h, State.raise, faultResp]

theorem acceptCommand_blksz (hs : s.seq = .done) :
    acceptCommand cap 0x01#8 dstAddr dstLen srcAddr srcLen s = s.respond ⟨.ok, 16⟩ := by
  simp [acceptCommand, hs, reservedOpcode, Config.blockSize]

/-- A cipher command the instance has: the slice check, the length checks, or the start. -/
theorem acceptCommand_cipher (hs : s.seq = .done) (h : reservedOpcode cap op = false) (hop : op ≠ 0x01#8) :
    acceptCommand cap op dstAddr dstLen srcAddr srcLen s =
      if 2 ^ 32 < srcAddr.toNat + srcLen.toNat ∨ 2 ^ 32 < dstAddr.toNat + dstLen.toNat then s.respond ⟨.badSlice, 0⟩
      else if srcLen.toNat < 16 then s.respond ⟨.invalidInputLength, 0⟩
      else if dstLen.toNat < 16 then s.respond ⟨.invalidOutputLength, 0⟩
      else (s.latch (opcodeDir op) dstAddr dstLen srcAddr srcLen).setSeq .inputUnmask := by
  simp only [acceptCommand, hs, h, hop, ne_eq, not_true_eq_false, if_false, Bool.or_eq_true, badSlice_iff, shorter_iff,
    State.raise, faultResp, Bool.false_eq_true]

end

/-! ### BUF -/

theorem sixteenFit_iff (base : Addr) : sixteenFit base = true ↔ base.toNat + 16 ≤ 2 ^ 32 := by
  simp [sixteenFit]

theorem loadBlock_eq (m : Memory) (base : Addr) :
    loadBlock m base = if base.toNat + 16 ≤ 2 ^ 32 then some (bytesAt m base) else none := by
  simp only [loadBlock, sixteenFit_iff, bytesAt]

theorem storeBlock_fits {base : Addr} (h : base.toNat + 16 ≤ 2 ^ 32) (m : Memory) (b : Block) :
    ∃ m', storeBlock m base b = some m' := by
  rw [← Option.isSome_iff_exists, storeBlock_isSome, sixteenFit_iff]
  exact h

theorem storeBlock_none {base : Addr} (h : ¬ base.toNat + 16 ≤ 2 ^ 32) (m : Memory) (b : Block) :
    storeBlock m base b = none := by
  rw [← Option.isNone_iff_eq_none, ← Option.not_isSome, storeBlock_isSome, Bool.not_eq_true', ← Bool.not_eq_true,
    sixteenFit_iff]
  exact h

/-- A stored Block is read back whole. -/
theorem bytesAt_storeBlock {m m' : Memory} {base : Addr} {b : Block} (hwf : Memory.wf m = true)
    (h : storeBlock m base b = some m') : bytesAt m' base = b := by
  apply Vector.ext
  intro i hi
  simpa [bytesAt] using (storeBlock_spec hwf h).2.1 ⟨i, hi⟩

/-! ### The sequencer operations -/

/-- INPUT_UNMASK on the state, for any store of tables (R120). -/
theorem inputUnmask_eq (T : TableStore) (s : State) :
    inputUnmask T s =
      if s.srcAddr.toNat + 16 ≤ 2 ^ 32 then
        .next { s with
          w := foldB T.ix (expandB T.im (bytesAt s.buf s.srcAddr)), pb := expandB T.im (bytesAt s.buf s.srcAddr)
          seq := .mainRound 0 }
      else .fault (.bufAddress s.srcAddr) := by
  by_cases h : s.srcAddr.toNat + 16 ≤ 2 ^ 32
  · simp only [inputUnmask, loadBlock_eq, h, if_true, foldBlock, expandBlock, State.setW, State.setPb, State.setSeq,
      sideChain, sideTables]
  · simp only [inputUnmask, loadBlock_eq, h, if_false]

/-- FINAL_ROUND's Block, before it is stored (R123). -/
theorem finalRound_fold (T : TableStore) (s : State) :
    foldBlock T .output (expandBlock T .output (permW s)) =
      { s with
        w := foldB T.ox (expandB T.om (permute s.dir s.w)), pb := expandB T.om (permute s.dir s.w) } := by
  simp only [foldBlock, expandBlock, permW, State.setW, State.setPb, sideChain, sideTables]

/-- FINAL_ROUND on the state, for any store of tables (R123): where the 16 destination addresses exist. -/
theorem finalRound_next (T : TableStore) (s : State) {m : Memory}
    (h : storeBlock s.buf s.dstAddr (foldB T.ox (expandB T.om (permute s.dir s.w))) = some m) :
    finalRound T s = .next { s with
      w := foldB T.ox (expandB T.om (permute s.dir s.w)), pb := expandB T.om (permute s.dir s.w), buf := m
      resp := s.resp ++ [⟨.ok, 0⟩], seq := .done } := by
  simp only [finalRound, finalRound_fold, h, State.setBuf, State.respond, State.setSeq]

/-- FINAL_ROUND where they do not. -/
theorem finalRound_fault (T : TableStore) (s : State) (h : ¬ s.dstAddr.toNat + 16 ≤ 2 ^ 32) :
    finalRound T s = .fault (.bufAddress s.dstAddr) := by
  simp only [finalRound, finalRound_fold, storeBlock_none h]

/-- The whole pipeline after its nine main rounds (R125). -/
theorem crypt_eq (T : TableStore) (d : BitVec 1) (b : Block) :
    crypt T d b = foldB T.ox (expandB T.om (permute d (cryptRounds T d b 9 (Nat.le_refl 9)))) := rfl

/-! ### What the next step is -/

theorem noReset_iff {s : State} : s.noReset = true ↔ s.resetLine.head? ≠ some true := by
  simp [State.noReset]

/-- The twelve words select the twelve operations (R63). -/
theorem decode_seqWord (q : Sys2Proof.Seq) :
    decode (.seq (seqWord q)) = .ok (match q with
      | .inputUnmask => .inputUnmask
      | .mainRound r => .mainRound (BitVec.ofNat 4 r.val)
      | .finalRound => .finalRound
      | .done => .done) := by
  cases q with
  | mainRound r => revert r; decide
  | inputUnmask => decide
  | finalRound => decide
  | done => decide

/-- R170. -/
theorem step_of_reset {s : State} (h : s.noReset = false) : step s = .next (resetEvent s) := by
  have h : s.resetLine.head? = some true := by simpa [State.noReset] using h
  simp only [step, turn, h, if_true]

/-- A unit request (log 11). -/
theorem step_of_unit {s : State} {u : UnitReq} (hr : s.noReset = true) (hu : s.unitReq = some u) :
    step s = runWord (unitWord u) { s with resetLine := s.resetLine.tail, unitReq := none } := by
  rw [noReset_iff] at hr
  simp only [step, turn, hr, if_false, hu, consume]

/-- While a command is under way SEQ alone selects the operation (R126). -/
theorem step_of_underway {s : State} (hr : s.noReset = true) (hu : s.unitReq = none) (hs : s.seq ≠ .done) :
    step s = (match s.seq with
      | .inputUnmask => inputUnmask Config.tables { s with resetLine := s.resetLine.tail }
      | .mainRound r => .next (mainRound Config.tables r { s with resetLine := s.resetLine.tail })
      | .finalRound => finalRound Config.tables { s with resetLine := s.resetLine.tail }
      | .done => .next s) := by
  rw [noReset_iff] at hr
  simp only [step, turn, hr, if_false, hu, hs, runWord, consume, decode_seqWord]
  cases h : s.seq with
  | done => exact absurd h hs
  | mainRound r => simp only [exec, execMainRound, roundOf_ofNat]
  | inputUnmask => simp only [exec, execInputUnmask]
  | finalRound => simp only [exec, execFinalRound]

/-- In DONE the host's command is taken (R138). -/
theorem step_of_command {s : State} {c : BitVec 136} {rest : List HostMove} (hr : s.noReset = true)
    (hu : s.unitReq = none) (hs : s.seq = .done) (hh : s.host = .command c :: rest) :
    step s = runWord (.cmd c) { s with resetLine := s.resetLine.tail, host := rest } := by
  rw [noReset_iff] at hr
  simp only [step, turn, hr, if_false, hu, hs, hh, if_true, consume, List.tail_cons]

/-- A command word on an idle block is the acceptance procedure on its fields (R60, R138). -/
theorem runWord_command {s : State} (c : BitVec 136) (hs : s.seq = .done) :
    runWord (.cmd c) s =
      .next (acceptCommand Config.dircap (cmdOpcode c) (cmdDstAddr c) (cmdDstLen c) (cmdSrcAddr c) (cmdSrcLen c) s) := by
  simp only [runWord, decode, decodeCmd]
  by_cases h1 : cmdOpcode c = 0x01#8
  · simp only [h1, if_true, exec, execBlksz, acceptCommand_blksz hs]
  by_cases h2 : cmdOpcode c = 0x02#8
  · simp only [h2, show (0x02#8 : Byte) ≠ 0x01#8 by decide, if_true, if_false, exec, execEnc]
  by_cases h3 : cmdOpcode c = 0x03#8
  · simp only [h3, show (0x03#8 : Byte) ≠ 0x01#8 by decide, show (0x03#8 : Byte) ≠ 0x02#8 by decide, if_true, if_false,
      exec, execDec]
  · have hr : reservedOpcode Config.dircap (cmdOpcode c) = true := by simp [reservedOpcode, h1, h2, h3]
    simp only [h1, h2, h3, if_false, reject, acceptCommand_reserved hs hr]

/-- In DONE a store of the host is done (R141). -/
theorem step_of_store {s : State} {a : Addr} {v : Byte} {rest : List HostMove} (hr : s.noReset = true)
    (hu : s.unitReq = none) (hs : s.seq = .done) (hh : s.host = .store a v :: rest) :
    step s = .next { s with
      resetLine := s.resetLine.tail, host := rest, buf := Memory.write s.buf a.toNat v } := by
  rw [noReset_iff] at hr
  simp only [step, turn, hr, if_false, hu, hs, hh, if_true, consume, hostStore, State.setBuf, List.tail_cons]

/-- In DONE with nothing from the host (R124). -/
theorem step_of_idle {s : State} (hr : s.noReset = true) (hu : s.unitReq = none) (hs : s.seq = .done)
    (hh : s.host = []) : step s = .next { s with resetLine := s.resetLine.tail } := by
  rw [noReset_iff] at hr
  have hd : decode (.seq (seqWord .done)) = .ok .done := rfl
  simp only [step, turn, hr, if_false, hu, hs, hh, if_true, consume, List.tail_nil, runWord, hd, exec, execDone]

/-- A run goes on from where a step leaves it. -/
theorem run_succ {s t : State} (h : step s = .next t) (k : Nat) : core.run (k + 1) s = core.run k t := by
  have h : core.step s = .next t := h
  simp only [Host.Core.run, h]

end Sys2Proof.Machine
end

