-- ==== Sys2Proof/Laws/PerInstr.lean ====
section
/-! SUPPORT. A statement about every operation as syntax: its word is of the format the table gives its row, and an
operation the table gives no format has no word (spec/30_encoding.md section 5). -/

namespace Sys2Proof.Laws.EncodeFormat

/-- The encoding of an operation is a word of the operation's format; it has one exactly when it has a format. -/
def Statement (i : Instr) : Prop := (encode i).map CodeWord.format = if i.format = .none then none else some i.format

theorem blksz : Statement .blksz := rfl
theorem enc (a : Addr) (b : Addr) (c : Addr) (d : Addr) : Statement (.enc a b c d) := rfl
theorem dec (a : Addr) (b : Addr) (c : Addr) (d : Addr) : Statement (.dec a b c d) := rfl
theorem inputUnmask : Statement .inputUnmask := rfl
theorem mainRound (a : BitVec 4) : Statement (.mainRound a) := rfl
theorem finalRound : Statement .finalRound := rfl
theorem done : Statement .done := rfl
theorem shiftrows : Statement .shiftrows := rfl
theorem unshiftrows : Statement .unshiftrows := rfl
theorem get16IM (a : BitVec 4) (b : Byte) : Statement (.get16IM a b) := rfl
theorem get1IX (a : BitVec 5) (b : BitVec 4) (c : Byte) : Statement (.get1IX a b c) := rfl
theorem get4TY (a : BitVec 4) (b : BitVec 4) (c : Byte) : Statement (.get4TY a b c) := rfl
theorem get1HX (a : BitVec 4) (b : BitVec 5) (c : BitVec 2) (d : Byte) : Statement (.get1HX a b c d) := rfl
theorem get4MB (a : BitVec 4) (b : BitVec 4) (c : Byte) : Statement (.get4MB a b c) := rfl
theorem get1LX (a : BitVec 4) (b : BitVec 5) (c : BitVec 2) (d : Byte) : Statement (.get1LX a b c d) := rfl
theorem get16OM (a : BitVec 4) (b : Byte) : Statement (.get16OM a b) := rfl
theorem get1OX (a : BitVec 5) (b : BitVec 4) (c : Byte) : Statement (.get1OX a b c) := rfl
theorem perm : Statement .perm := rfl
theorem expandw (a : Path) (b : BitVec 4) (c : BitVec 2) : Statement (.expandw a b c) := rfl
theorem foldstep (a : NibSel) (b : NibSel) (c : Byte) (d : Byte) : Statement (.foldstep a b c d) := rfl
theorem foldw (a : Path) (b : BitVec 4) (c : BitVec 2) : Statement (.foldw a b c) := rfl
theorem column (a : BitVec 4) (b : BitVec 2) : Statement (.column a b) := rfl
theorem expandb (a : Side) : Statement (.expandb a) := rfl
theorem foldb (a : Side) : Statement (.foldb a) := rfl
theorem crypt (a : BitVec 1) (b : Block) : Statement (.crypt a b) := rfl

end Sys2Proof.Laws.EncodeFormat
end

