-- ==== Sys2Proof/Laws/Words.lean ====
section
/-! SUPPORT. The fields of a word that is put together from fields: CMD (R60), SEQ (R63), TADDR (R64, R65). -/

namespace Sys2Proof

theorem extractLsb'_append_low {m n : Nat} (x : BitVec m) (y : BitVec n) (s l : Nat) (h : s + l ≤ n) :
    (x ++ y).extractLsb' s l = y.extractLsb' s l := by
  apply BitVec.eq_of_getLsbD_eq
  intro i hi
  simp only [BitVec.getLsbD_extractLsb', hi, decide_true, Bool.true_and, BitVec.getLsbD_append]
  rw [if_pos (by omega)]

theorem extractLsb'_append_high {m n : Nat} (x : BitVec m) (y : BitVec n) (s l : Nat) (h : n ≤ s) :
    (x ++ y).extractLsb' s l = x.extractLsb' (s - n) l := by
  apply BitVec.eq_of_getLsbD_eq
  intro i hi
  simp only [BitVec.getLsbD_extractLsb', hi, decide_true, Bool.true_and, BitVec.getLsbD_append]
  rw [if_neg (by omega), show s + i - n = s - n + i by omega]

/-- A word put together from two parts, as a number. -/
theorem toNat_append_eq {m n : Nat} (x : BitVec m) (y : BitVec n) :
    (x ++ y).toNat = x.toNat * 2 ^ n + y.toNat := by
  rw [BitVec.toNat_append, ← Nat.shiftLeft_add_eq_or_of_lt y.isLt, Nat.shiftLeft_eq]

section
variable (op : Byte) (dstAddr dstLen srcAddr srcLen : Addr)

@[simp] theorem cmdOpcode_cmdWord : cmdOpcode (cmdWord op dstAddr dstLen srcAddr srcLen) = op := by
  change BitVec.extractLsb' (n := 32 + 32 + 32 + 32 + 8) 0 8 (srcLen ++ srcAddr ++ dstLen ++ dstAddr ++ op) = op
  rw [extractLsb'_append_low _ _ _ _ (by decide), BitVec.extractLsb'_eq_self]

@[simp] theorem cmdDstAddr_cmdWord : cmdDstAddr (cmdWord op dstAddr dstLen srcAddr srcLen) = dstAddr := by
  change BitVec.extractLsb' (n := 32 + 32 + 32 + 32 + 8) 8 32 (srcLen ++ srcAddr ++ dstLen ++ dstAddr ++ op) = dstAddr
  rw [extractLsb'_append_high _ _ _ _ (by decide), extractLsb'_append_low _ _ _ _ (by decide),
    BitVec.extractLsb'_eq_self]

@[simp] theorem cmdDstLen_cmdWord : cmdDstLen (cmdWord op dstAddr dstLen srcAddr srcLen) = dstLen := by
  change BitVec.extractLsb' (n := 32 + 32 + 32 + 32 + 8) 40 32 (srcLen ++ srcAddr ++ dstLen ++ dstAddr ++ op) = dstLen
  rw [extractLsb'_append_high _ _ _ _ (by decide), extractLsb'_append_high _ _ _ _ (by decide),
    extractLsb'_append_low _ _ _ _ (by decide), BitVec.extractLsb'_eq_self]

@[simp] theorem cmdSrcAddr_cmdWord : cmdSrcAddr (cmdWord op dstAddr dstLen srcAddr srcLen) = srcAddr := by
  change BitVec.extractLsb' (n := 32 + 32 + 32 + 32 + 8) 72 32 (srcLen ++ srcAddr ++ dstLen ++ dstAddr ++ op) = srcAddr
  rw [extractLsb'_append_high _ _ _ _ (by decide), extractLsb'_append_high _ _ _ _ (by decide),
    extractLsb'_append_high _ _ _ _ (by decide), extractLsb'_append_low _ _ _ _ (by decide),
    BitVec.extractLsb'_eq_self]

@[simp] theorem cmdSrcLen_cmdWord : cmdSrcLen (cmdWord op dstAddr dstLen srcAddr srcLen) = srcLen := by
  change BitVec.extractLsb' (n := 32 + 32 + 32 + 32 + 8) 104 32 (srcLen ++ srcAddr ++ dstLen ++ dstAddr ++ op) = srcLen
  rw [extractLsb'_append_high _ _ _ _ (by decide), extractLsb'_append_high _ _ _ _ (by decide),
    extractLsb'_append_high _ _ _ _ (by decide), extractLsb'_append_high _ _ _ _ (by decide),
    BitVec.extractLsb'_eq_self]

end

/-- `CMD.OPCODE` as a number (R60). -/
theorem cmdOpcode_eq_ofNat (c : BitVec 136) : cmdOpcode c = BitVec.ofNat 8 c.toNat := by
  apply BitVec.eq_of_toNat_eq
  simp [cmdOpcode, BitVec.extractLsb'_toNat]

/-- Any 32-bit field of CMD as a number (R60). -/
theorem cmdField_eq_ofNat (c : BitVec 136) (k : Nat) : c.extractLsb' k 32 = BitVec.ofNat 32 (c.toNat / 2 ^ k) := by
  apply BitVec.eq_of_toNat_eq
  simp [BitVec.extractLsb'_toNat, Nat.shiftRight_eq_div_pow]

section
variable (space : BitVec 3) (round pos step4 : BitVec 4) (npos : BitVec 5) (step2 : BitVec 2) (idx : Byte)

/-- The fields of a table address of IM or OM (R65). -/
theorem taddr_block_fields :
    let a : BitVec 24 := space ++ 0#9 ++ pos ++ idx
    taddrSpace a = space ∧ a.extractLsb' 12 9 = 0#9 ∧ a.extractLsb' 8 4 = pos ∧ taddrIdx a = idx := by
  refine ⟨?_, ?_, ?_, ?_⟩
  · change BitVec.extractLsb' (n := 3 + 9 + 4 + 8) 21 3 (space ++ 0#9 ++ pos ++ idx) = space
    rw [extractLsb'_append_high _ _ _ _ (by decide), extractLsb'_append_high _ _ _ _ (by decide),
      extractLsb'_append_high _ _ _ _ (by decide), BitVec.extractLsb'_eq_self]
  · change BitVec.extractLsb' (n := 3 + 9 + 4 + 8) 12 9 (space ++ 0#9 ++ pos ++ idx) = 0#9
    rw [extractLsb'_append_high _ _ _ _ (by decide), extractLsb'_append_high _ _ _ _ (by decide),
      extractLsb'_append_low _ _ _ _ (by decide), BitVec.extractLsb'_eq_self]
  · change BitVec.extractLsb' (n := 3 + 9 + 4 + 8) 8 4 (space ++ 0#9 ++ pos ++ idx) = pos
    rw [extractLsb'_append_high _ _ _ _ (by decide), extractLsb'_append_low _ _ _ _ (by decide),
      BitVec.extractLsb'_eq_self]
  · change BitVec.extractLsb' (n := 3 + 9 + 4 + 8) 0 8 (space ++ 0#9 ++ pos ++ idx) = idx
    rw [extractLsb'_append_low _ _ _ _ (by decide), BitVec.extractLsb'_eq_self]

/-- The fields of a table address of TY or MB (R65). -/
theorem taddr_round_fields :
    let a : BitVec 24 := space ++ 0#5 ++ round ++ pos ++ idx
    taddrSpace a = space ∧ a.extractLsb' 16 5 = 0#5 ∧ a.extractLsb' 12 4 = round ∧ a.extractLsb' 8 4 = pos ∧
      taddrIdx a = idx := by
  refine ⟨?_, ?_, ?_, ?_, ?_⟩
  · change BitVec.extractLsb' (n := 3 + 5 + 4 + 4 + 8) 21 3 (space ++ 0#5 ++ round ++ pos ++ idx) = space
    rw [extractLsb'_append_high _ _ _ _ (by decide), extractLsb'_append_high _ _ _ _ (by decide),
      extractLsb'_append_high _ _ _ _ (by decide), extractLsb'_append_high _ _ _ _ (by decide),
      BitVec.extractLsb'_eq_self]
  · change BitVec.extractLsb' (n := 3 + 5 + 4 + 4 + 8) 16 5 (space ++ 0#5 ++ round ++ pos ++ idx) = 0#5
    rw [extractLsb'_append_high _ _ _ _ (by decide), extractLsb'_append_high _ _ _ _ (by decide),
      extractLsb'_append_high _ _ _ _ (by decide), extractLsb'_append_low _ _ _ _ (by decide),
      BitVec.extractLsb'_eq_self]
  · change BitVec.extractLsb' (n := 3 + 5 + 4 + 4 + 8) 12 4 (space ++ 0#5 ++ round ++ pos ++ idx) = round
    rw [extractLsb'_append_high _ _ _ _ (by decide), extractLsb'_append_high _ _ _ _ (by decide),
      extractLsb'_append_low _ _ _ _ (by decide), BitVec.extractLsb'_eq_self]
  · change BitVec.extractLsb' (n := 3 + 5 + 4 + 4 + 8) 8 4 (space ++ 0#5 ++ round ++ pos ++ idx) = pos
    rw [extractLsb'_append_high _ _ _ _ (by decide), extractLsb'_append_low _ _ _ _ (by decide),
      BitVec.extractLsb'_eq_self]
  · change BitVec.extractLsb' (n := 3 + 5 + 4 + 4 + 8) 0 8 (space ++ 0#5 ++ round ++ pos ++ idx) = idx
    rw [extractLsb'_append_low _ _ _ _ (by decide), BitVec.extractLsb'_eq_self]

/-- The fields of a table address of IX or OX (R65). -/
theorem taddr_blockChain_fields :
    let a : BitVec 24 := space ++ 0#4 ++ npos ++ step4 ++ idx
    taddrSpace a = space ∧ a.extractLsb' 17 4 = 0#4 ∧ a.extractLsb' 12 5 = npos ∧ a.extractLsb' 8 4 = step4 ∧
      taddrIdx a = idx := by
  refine ⟨?_, ?_, ?_, ?_, ?_⟩
  · change BitVec.extractLsb' (n := 3 + 4 + 5 + 4 + 8) 21 3 (space ++ 0#4 ++ npos ++ step4 ++ idx) = space
    rw [extractLsb'_append_high _ _ _ _ (by decide), extractLsb'_append_high _ _ _ _ (by decide),
      extractLsb'_append_high _ _ _ _ (by decide), extractLsb'_append_high _ _ _ _ (by decide),
      BitVec.extractLsb'_eq_self]
  · change BitVec.extractLsb' (n := 3 + 4 + 5 + 4 + 8) 17 4 (space ++ 0#4 ++ npos ++ step4 ++ idx) = 0#4
    rw [extractLsb'_append_high _ _ _ _ (by decide), extractLsb'_append_high _ _ _ _ (by decide),
      extractLsb'_append_high _ _ _ _ (by decide), extractLsb'_append_low _ _ _ _ (by decide),
      BitVec.extractLsb'_eq_self]
  · change BitVec.extractLsb' (n := 3 + 4 + 5 + 4 + 8) 12 5 (space ++ 0#4 ++ npos ++ step4 ++ idx) = npos
    rw [extractLsb'_append_high _ _ _ _ (by decide), extractLsb'_append_high _ _ _ _ (by decide),
      extractLsb'_append_low _ _ _ _ (by decide), BitVec.extractLsb'_eq_self]
  · change BitVec.extractLsb' (n := 3 + 4 + 5 + 4 + 8) 8 4 (space ++ 0#4 ++ npos ++ step4 ++ idx) = step4
    rw [extractLsb'_append_high _ _ _ _ (by decide), extractLsb'_append_low _ _ _ _ (by decide),
      BitVec.extractLsb'_eq_self]
  · change BitVec.extractLsb' (n := 3 + 4 + 5 + 4 + 8) 0 8 (space ++ 0#4 ++ npos ++ step4 ++ idx) = idx
    rw [extractLsb'_append_low _ _ _ _ (by decide), BitVec.extractLsb'_eq_self]

/-- The fields of a table address of HX or LX (R65). -/
theorem taddr_wordChain_fields :
    let a : BitVec 24 := space ++ 0#2 ++ round ++ npos ++ step2 ++ idx
    taddrSpace a = space ∧ a.extractLsb' 19 2 = 0#2 ∧ a.extractLsb' 15 4 = round ∧ a.extractLsb' 10 5 = npos ∧
      a.extractLsb' 8 2 = step2 ∧ taddrIdx a = idx := by
  refine ⟨?_, ?_, ?_, ?_, ?_, ?_⟩
  · change BitVec.extractLsb' (n := 3 + 2 + 4 + 5 + 2 + 8) 21 3 (space ++ 0#2 ++ round ++ npos ++ step2 ++ idx) = space
    rw [extractLsb'_append_high _ _ _ _ (by decide), extractLsb'_append_high _ _ _ _ (by decide),
      extractLsb'_append_high _ _ _ _ (by decide), extractLsb'_append_high _ _ _ _ (by decide),
      extractLsb'_append_high _ _ _ _ (by decide), BitVec.extractLsb'_eq_self]
  · change BitVec.extractLsb' (n := 3 + 2 + 4 + 5 + 2 + 8) 19 2 (space ++ 0#2 ++ round ++ npos ++ step2 ++ idx) = 0#2
    rw [extractLsb'_append_high _ _ _ _ (by decide), extractLsb'_append_high _ _ _ _ (by decide),
      extractLsb'_append_high _ _ _ _ (by decide), extractLsb'_append_high _ _ _ _ (by decide),
      extractLsb'_append_low _ _ _ _ (by decide), BitVec.extractLsb'_eq_self]
  · change BitVec.extractLsb' (n := 3 + 2 + 4 + 5 + 2 + 8) 15 4 (space ++ 0#2 ++ round ++ npos ++ step2 ++ idx) = round
    rw [extractLsb'_append_high _ _ _ _ (by decide), extractLsb'_append_high _ _ _ _ (by decide),
      extractLsb'_append_high _ _ _ _ (by decide), extractLsb'_append_low _ _ _ _ (by decide),
      BitVec.extractLsb'_eq_self]
  · change BitVec.extractLsb' (n := 3 + 2 + 4 + 5 + 2 + 8) 10 5 (space ++ 0#2 ++ round ++ npos ++ step2 ++ idx) = npos
    rw [extractLsb'_append_high _ _ _ _ (by decide), extractLsb'_append_high _ _ _ _ (by decide),
      extractLsb'_append_low _ _ _ _ (by decide), BitVec.extractLsb'_eq_self]
  · change BitVec.extractLsb' (n := 3 + 2 + 4 + 5 + 2 + 8) 8 2 (space ++ 0#2 ++ round ++ npos ++ step2 ++ idx) = step2
    rw [extractLsb'_append_high _ _ _ _ (by decide), extractLsb'_append_low _ _ _ _ (by decide),
      BitVec.extractLsb'_eq_self]
  · change BitVec.extractLsb' (n := 3 + 2 + 4 + 5 + 2 + 8) 0 8 (space ++ 0#2 ++ round ++ npos ++ step2 ++ idx) = idx
    rw [extractLsb'_append_low _ _ _ _ (by decide), BitVec.extractLsb'_eq_self]

/-- A table address of IM or OM as a number (R65). -/
theorem taddr_block_toNat :
    (space ++ 0#9 ++ pos ++ idx : BitVec 24).toNat = space.toNat * 2 ^ 21 + pos.toNat * 2 ^ 8 + idx.toNat := by
  simp only [toNat_append_eq, BitVec.toNat_ofNat]
  omega

/-- A table address of TY or MB as a number (R65). -/
theorem taddr_round_toNat :
    (space ++ 0#5 ++ round ++ pos ++ idx : BitVec 24).toNat =
      space.toNat * 2 ^ 21 + round.toNat * 2 ^ 12 + pos.toNat * 2 ^ 8 + idx.toNat := by
  simp only [toNat_append_eq, BitVec.toNat_ofNat]
  omega

/-- A table address of IX or OX as a number (R65). -/
theorem taddr_blockChain_toNat :
    (space ++ 0#4 ++ npos ++ step4 ++ idx : BitVec 24).toNat =
      space.toNat * 2 ^ 21 + npos.toNat * 2 ^ 12 + step4.toNat * 2 ^ 8 + idx.toNat := by
  simp only [toNat_append_eq, BitVec.toNat_ofNat]
  omega

/-- A table address of HX or LX as a number (R65). -/
theorem taddr_wordChain_toNat :
    (space ++ 0#2 ++ round ++ npos ++ step2 ++ idx : BitVec 24).toNat =
      space.toNat * 2 ^ 21 + round.toNat * 2 ^ 15 + npos.toNat * 2 ^ 10 + step2.toNat * 2 ^ 8 + idx.toNat := by
  simp only [toNat_append_eq, BitVec.toNat_ofNat]
  omega

end

end Sys2Proof
end

