-- ==== Sys2Proof/Tests/Slice0.lean ====
section
/-! SUPPORT. Tests of the model against the numbers of the spec, and a witness for the hypotheses of each statement.
Expected values are those of spec/30_encoding.md, spec/45_commands.md and spec/95_test_vectors.md. -/

namespace Sys2Proof.Tests

open Sys2Proof.Machine

-- One proof at a time: several of the kernel evaluations below at once take much memory.
set_option Elab.async false

/-! ### Well-formedness: an ill-formed operation for each check (R65, R70) -/

theorem test_wf_round_nine : Instr.wf (.mainRound 9) = false ∧ Instr.wf (.mainRound 8) = true := by decide
theorem test_wf_round_tables : Instr.wf (.get4TY 9 0 0) = false ∧ Instr.wf (.get4MB 15 0 0) = false := by decide
theorem test_wf_block_step :
    Instr.wf (.get1IX 0 15 0) = false ∧ Instr.wf (.get1OX 31 15 0) = false ∧ Instr.wf (.get1OX 31 14 0) = true := by decide
theorem test_wf_word_step :
    Instr.wf (.get1HX 8 31 3 0) = false ∧ Instr.wf (.get1LX 0 0 3 0) = false ∧ Instr.wf (.get1LX 8 31 2 0) = true := by
  decide
theorem test_wf_word_round : Instr.wf (.get1HX 9 0 0 0) = false ∧ Instr.wf (.get1LX 9 0 0 0) = false := by decide
theorem test_wf_foldstep :
    Instr.wf (.foldstep (.ix 0 15) (.ox 0 0) 0 0) = false ∧ Instr.wf (.foldstep (.ix 0 0) (.lx 9 0 0) 0 0) = false := by
  decide
theorem test_wf_columns :
    Instr.wf (.expandw .high 9 0) = false ∧ Instr.wf (.foldw .low 9 0) = false ∧ Instr.wf (.column 9 0) = false := by
  decide

/-! ### Decoding, every constructor that has a word -/

/-- R60, R61, R135: BLKSZ, its operand fields ignored. -/
theorem test_decode_blksz :
    decode (.cmd 0x0000000000000000000000000000000001#136) = .ok .blksz ∧
    decode (.cmd 0xABCDEF0123456789ABCDEF012345678901#136) = .ok .blksz := by decide

/-- R136's example. -/
theorem test_decode_enc :
    decode (.cmd 0x0000001000001000000000100000200002#136) = .ok (.enc 0x2000 16 0x1000 16) := by decide

/-- R137's example. -/
theorem test_decode_dec :
    decode (.cmd 0x0000001000002000000000100000100003#136) = .ok (.dec 0x1000 16 0x2000 16) := by decide

/-- R63. -/
theorem test_decode_seq :
    decode (.seq 0x00#6) = .ok .inputUnmask ∧ decode (.seq 0x10#6) = .ok (.mainRound 0) ∧
    decode (.seq 0x18#6) = .ok (.mainRound 8) ∧ decode (.seq 0x20#6) = .ok .finalRound ∧
    decode (.seq 0x30#6) = .ok .done := by decide

/-- R70. -/
theorem test_decode_seq_reserved :
    decode (.seq 0x19#6) = .error (.noSequencerState 0x19#6) ∧ decode (.seq 0x01#6) = .error (.noSequencerState 0x01#6) ∧
    decode (.seq 0x3F#6) = .error (.noSequencerState 0x3F#6) := by decide

/-- R22. -/
theorem test_decode_dir : decode (.dir 0#1) = .ok .shiftrows ∧ decode (.dir 1#1) = .ok .unshiftrows := by decide

/-- R65's worked values and the addresses of spec/95_test_vectors.md V1. -/
theorem test_decode_taddr :
    decode (.taddr 0x0005AB#24) = .ok (.get16IM 5 0xAB) ∧ decode (.taddr 0x21FE12#24) = .ok (.get1IX 31 14 0x12) ∧
    decode (.taddr 0x408FFF#24) = .ok (.get4TY 8 15 0xFF) ∧ decode (.taddr 0x647EFF#24) = .ok (.get1HX 8 31 2 0xFF) ∧
    decode (.taddr 0x804980#24) = .ok (.get4MB 4 9 0x80) ∧ decode (.taddr 0xA47E9A#24) = .ok (.get1LX 8 31 2 0x9A) ∧
    decode (.taddr 0xC00FFF#24) = .ok (.get16OM 15 0xFF) ∧ decode (.taddr 0xE1FEFF#24) = .ok (.get1OX 31 14 0xFF) := by
  decide

/-- R70: a round, a step and a bit outside the layout that name no table. -/
theorem test_decode_taddr_reserved :
    decode (.taddr 0x409000#24) = .error (.noTable 0x409000#24) ∧ decode (.taddr 0x200F00#24) = .error (.noTable 0x200F00#24) ∧
    decode (.taddr 0x600300#24) = .error (.noTable 0x600300#24) ∧
    decode (.taddr 0x001000#24) = .error (.noTable 0x001000#24) := by decide

/-- The host's words: a whole word of each format, and the byte where formats meet (log 21). -/
theorem test_table_words :
    decodeTableWord 24 0x0005AB = some (.get16IM 5 0xAB) ∧ decodeTableWord 6 0x18 = some (.mainRound 8) ∧
    decodeTableWord 1 1 = some .unshiftrows ∧ decodeTableWord 8 2 = some (.enc 0 0 0 0) ∧
    decodeTableWord 8 0x30 = some .done ∧ decodeTableWord 8 0x7F = none := by decide

/-- The placed word is the one the next step runs. -/
theorem test_withFetchWord :
    step (State.reset.withFetchWord 24 0x408FFF) = .next { State.reset with out := .word (Config.tables.ty 8 15 0xFF) } :=
  step_of_unit (s := State.reset.withFetchWord 24 0x408FFF) rfl rfl

/-! ### The toy tables of spec/95_test_vectors.md V3.1 -/

/-- A sequence of 16 bytes, position 0 first. -/
def block (v : BitVec 128) : Block := Vector.ofFn fun i => v.extractLsb' (8 * (15 - i.val)) 8

/-- A sequence of 4 bytes, position 0 first. -/
def word (v : BitVec 32) : Word := Vector.ofFn fun i => v.extractLsb' (8 * (3 - i.val)) 8

/-- `(a + b + k) mod 16`. -/
def nib (a b : Nibble) (k : Nat) : Nibble := a + b + BitVec.ofNat 4 k

/-- V3.1. -/
def toy : TableStore where
  im i x := Vector.ofFn fun j => x + BitVec.ofNat 8 (16 * i.val + j.val)
  om i x := Vector.ofFn fun j => 3#8 * x + BitVec.ofNat 8 (i.val + 5 * j.val)
  ty r p x := Vector.ofFn fun m => x + BitVec.ofNat 8 (7 * r.val + 3 * p.val + 11 * m.val)
  mb r p x := Vector.ofFn fun m => 5#8 * x + BitVec.ofNat 8 (r.val + 2 * p.val + 13 * m.val + 1)
  ix s b h x := nib ((hi x).rotateLeft 1) (lo x) (s.val + b.val + h.val)
  ox s b h x := nib (hi x) ((lo x).rotateLeft 1) (s.val + 2 * b.val + h.val)
  hx r c s b h x := nib ((hi x).rotateLeft 1) (lo x) (r.val + c.val + s.val + b.val + h.val)
  lx r c s b h x := nib ((hi x).rotateLeft 3) (lo x) (r.val + 2 * c.val + 3 * s.val + b.val + h.val)

/-- The table `NC` of V2.3. -/
def nc (x : Byte) : Nibble := (hi x).rotateLeft 1 ^^^ lo x

/-- The plain exclusive-or table. -/
def xor4 (x : Byte) : Nibble := hi x ^^^ lo x

/-- V1, GET16 and GET4: wrap at 256, the last table of its space. -/
theorem test_toy_get16 :
    toy.im 5 0xAB = block 0xfbfcfdfeff000102030405060708090a#128 ∧
    toy.om 15 0xFF = block 0x0c11161b20252a2f34393e43484d5257#128 := by decide +kernel
theorem test_toy_get4 : toy.ty 8 15 0xFF = word 0x646f7a85#32 ∧ toy.mb 4 9 0x80 = word 0x97a4b1be#32 := by
  decide +kernel

/-- V1, GET1: the table a selector names. -/
theorem test_toy_get1 :
    (nibTable toy (.ix 31 14)).map (· 0x12) = some 0x2 ∧ (nibTable toy (.hx 0 1 0)).map (· 0x2C) = some 0x1 ∧
    (nibTable toy (.lx 8 31 2)).map (· 0x9A) = some 0xE ∧ (nibTable toy (.ox 31 14)).map (· 0xFF) = some 0xB := by
  decide +kernel

/-- V2.1. -/
theorem test_shiftrows :
    shiftRows (block 0x000102030405060708090a0b0c0d0e0f#128) = block 0x00050a0f04090e03080d02070c01060b#128 := by
  decide +kernel
theorem test_unshiftrows :
    unshiftRows (block 0x000102030405060708090a0b0c0d0e0f#128) = block 0x000d0a0704010e0b0805020f0c090603#128 := by
  decide +kernel

/-- R90, R91: the corner cases the rules mark as derived. -/
theorem test_shiftrows_four_times (b : Block) : shiftRows (shiftRows (shiftRows (shiftRows b))) = b := by
  apply Vector.ext
  intro i hi
  simp only [shiftRows, Vector.getElem_ofFn]
  congr 1
  omega
theorem test_row_two_moves_alike :
    ∀ i : Fin 16, i.val ∈ [0, 4, 8, 12, 2, 6, 10, 14] → ∀ b : Block, (unshiftRows b)[i] = (shiftRows b)[i] := by
  intro i hi b
  fin_cases i <;> simp [unshiftRows, shiftRows] at hi ⊢

/-- V2.1: PERM by the direction. -/
theorem test_perm :
    permute 1#1 (block 0xa0a1a2a3a4a5a6a7a8a9aaabacadaeaf#128) = block 0xa0adaaa7a4a1aeaba8a5a2afaca9a6a3#128 := by
  decide +kernel

/-- V2.2. -/
theorem test_foldstep :
    foldStep xor4 xor4 0xA5 0x3C = 0x99#8 ∧ foldStep nc nc 0xA5 0x3C = 0x66#8 ∧
    foldStep (fun x => hi x + lo x) (fun x => hi x - lo x) 0xA5 0x3C = 0xD9#8 ∧
    foldStep (toy.hx 0 0 0 0 0) (toy.hx 0 0 0 0 1) 0x82 0x80 = 0x95#8 := by decide +kernel

/-- V2.3, V2.4: the order and the packing are part of the function. -/
theorem test_foldw_order :
    foldW (fun _ _ _ => nc) #v[word 0x12345678#32, word 0x9abcdef0#32, word 0x0f1e2d3c#32, word 0xff00aa55#32] =
      word 0x1b5c3978#32 := by decide +kernel

/-- R100's and R102's examples. -/
theorem test_expandw :
    expandW (columnTables toy .high 0 0) (word 0x827da28e#32) =
      #v[word 0x828d98a3#32, word 0x808b96a1#32, word 0xa8b3bec9#32, word 0x97a2adb8#32] := by decide +kernel
theorem test_foldw :
    foldW (toy.hx 0 0) #v[word 0x828d98a3#32, word 0x808b96a1#32, word 0xa8b3bec9#32, word 0x97a2adb8#32] =
      word 0x82145088#32 := by decide +kernel

/-- R122's example, and a column beyond the first. -/
theorem test_column : columnWord toy 0 0 (word 0x827da28e#32) = word 0x8f2ab806#32 := by decide +kernel
theorem test_column_three : columnWord toy 0 3 (word 0xee3715d8#32) = word 0x9f172ebc#32 := by decide +kernel

/-- V2.5: EXPANDB of the toy masks gives these partials (R110); FOLDB of `NC`. -/
theorem test_expandb :
    (expandB toy.im (block 0x000102030405060708090a0b0c0d0e0f#128))[1] = block 0x1112131415161718191a1b1c1d1e1f20#128 := by
  decide +kernel
theorem test_foldb :
    foldB (fun _ _ _ => nc) (Vector.ofFn fun i => Vector.ofFn fun j => BitVec.ofNat 8 (17 * i.val + j.val)) =
      block 0x00f0d01090e0c0008070509010604080#128 := by decide +kernel

/-- V3.2: W after INPUT_UNMASK. -/
theorem test_input_unmask :
    foldB toy.ix (expandB toy.im (block 0x000102030405060708090a0b0c0d0e0f#128)) =
      block 0x8237a76e267d159da0ffa2d8ee89e08e#128 := by decide +kernel

/-- V3.2, V3.3: W after MAIN_ROUND(0), in both directions. -/
theorem test_main_round_enc :
    roundBlock toy 0#1 0 (block 0x8237a76e267d159da0ffa2d8ee89e08e#128) =
      block 0x8f2ab806734dc9c38de7e5bc9f172ebc#128 := by decide +kernel
theorem test_main_round_dec :
    roundBlock toy 1#1 0 (block 0x8237a76e267d159da0ffa2d8ee89e08e#128) =
      block 0x42a826208957156fde304ea5ff4d64d0#128 := by decide +kernel

/-- V3.2: the last round uses the tables of round 8. -/
theorem test_main_round_eight :
    roundBlock toy 0#1 8 (block 0x167002c7630123ff18442f0dd6b082b0#128) =
      block 0x2533ce8a26b4df4b13f7d96bf187d5b7#128 := by decide +kernel

/-- V3.2: the block FINAL_ROUND writes. -/
theorem test_final_round :
    foldB toy.ox (expandB toy.om (permute 0#1 (block 0x2533ce8a26b4df4b13f7d96bf187d5b7#128))) =
      block 0xc57de650f922ac44ac26af27c029c14b#128 := by decide +kernel

/-- V3.2: CRYPT, the whole pipeline. -/
theorem test_crypt :
    crypt toy 0#1 (block 0x000102030405060708090a0b0c0d0e0f#128) = block 0xc57de650f922ac44ac26af27c029c14b#128 := by
  decide +kernel

/-! ### Commands and responses (spec/95_test_vectors.md V5) -/

/-- The idle block after a command word, in an instance strapped `cap`. -/
def taken (cap : DirCap) (c : BitVec 136) : State :=
  acceptCommand cap (cmdOpcode c) (cmdDstAddr c) (cmdDstLen c) (cmdSrcAddr c) (cmdSrcLen c) State.reset

/-- The response words of a command. -/
def answer (cap : DirCap) (c : BitVec 136) : List (BitVec 16) := (taken cap c).resp.map respWord

theorem test_blksz : answer .both 0xFFFFFFFFFFFFFFFFFFFFFFFFFFFFFFFF01#136 = [0x1000#16] ∧ answer .encOnly 0x01#136 = [0x1000#16] := by
  decide +kernel
theorem test_illegal_opcodes :
    answer .both 0x7F#136 = [0x7F01#16] ∧ answer .both 0x00#136 = [0x0001#16] ∧
    answer .encOnly 0x0000001000002000000000100000100003#136 = [0x0301#16] ∧
    answer .decOnly 0x0000001000001000000000100000200002#136 = [0x0201#16] := by decide +kernel
theorem test_short_slices :
    answer .both 0x0000000f00001000000000100000200002#136 = [0x0002#16] ∧
    answer .both 0x0000001000001000000000080000200002#136 = [0x0003#16] ∧ answer .both 0x02#136 = [0x0002#16] := by
  decide +kernel
theorem test_bad_slice : answer .both 0x00000010fffffff8000000100000200002#136 = [0x0004#16] := by decide +kernel
theorem test_fault_priority :
    answer .both 0x0000000f00001000000000080000200002#136 = [0x0002#16] ∧
    answer .both 0x0000000ffffffff8000000080000200002#136 = [0x0004#16] := by decide +kernel

/-- A slice that ends at `2^32` is legal: ENC starts, with the latches of its word and no response yet. -/
theorem test_enc_latches :
    taken .both 0x00000010fffffff0000000100000200002#136 =
      { State.reset with
        dir := 0, dstAddr := 0x2000, dstLen := 16, srcAddr := 0xFFFFFFF0, srcLen := 16, seq := .inputUnmask } := by
  decide +kernel
theorem test_dec_latches :
    taken .decOnly 0x0000001000002000000000100000100003#136 =
      { State.reset with
        dir := 1, dstAddr := 0x1000, dstLen := 16, srcAddr := 0x2000, srcLen := 16, seq := .inputUnmask } := by
  decide +kernel

/-- R124, R30: DONE. -/
theorem test_done : exec .done State.reset = .next State.reset := rfl

/-- R43: byte `i` of a Block lies at `base + i`; the last address exists. -/
theorem test_store_block :
    (storeBlock [] 0xFFFFFFF0 (block 0x000102030405060708090a0b0c0d0e0f#128)).map (Memory.read · 4294967295) =
      some 0x0f#8 ∧ loadBlock [] 0xFFFFFFF1 = none := by decide +kernel

/-- R46, R140: the Block read back is the Block stored. -/
theorem test_load_block :
    loadBlock [(0x1000, 0xAA#8), (0x100F, 0xBB#8), (0x1010, 0xCC#8)] 0x1000 =
      some (block 0xAA0000000000000000000000000000BB#128) := by decide +kernel

/-- Writing what an unlisted byte reads as removes the entry (log 2). -/
theorem test_canonical_write : Memory.write [(5, 0x11#8), (7, 0x22#8)] 5 0x00#8 = [(7, 0x22#8)] := by decide

/-! ### Witnesses: states and operands that meet the hypotheses of the statements -/

/-- The idle block with a command at the port. -/
def withCommand (c : BitVec 136) : State := { State.reset with host := [.command c] }

/-- A cipher command under way at `q`, its slices the last 16 addresses. -/
def underway (q : Seq) : State :=
  { State.reset with
    seq := q, srcAddr := 0xFFFFFFF0, srcLen := 16, dstAddr := 0xFFFFFFF0, dstLen := 16
    buf := [(0xFFFFFFF0, 0x01#8), (0xFFFFFFFF, 0x02#8)] }

/-- DecodeOfEncodeIsTheOperation. -/
theorem witness_encode : Instr.wf (.get1HX 8 31 2 0xFF) = true ∧ encode (.get1HX 8 31 2 0xFF) = some (.taddr 0x647EFF#24) := by
  decide

/-- EncodeOfDecodeIsTheWord, both cases: see `test_decode_blksz` and `test_decode_taddr`. -/
theorem witness_decode :
    decode (.cmd 0x0201#136) = .ok .blksz ∧ encode .blksz = some (.cmd 0x01#136) ∧
    decode (.seq 0x18#6) = .ok (.mainRound 8) := by decide

/-- TableAddressesOfNoTableAreRefused: an address on each side of each range. -/
theorem witness_named :
    ([0x000FFF#24, 0xC00FFF#24, 0x408FFF#24, 0x808FFF#24, 0x21FEFF#24, 0xE1FEFF#24, 0x647EFF#24, 0xA47EFF#24].all
      fun a => (decode (.taddr a)).toOption.isSome) = true ∧
    ([0x001000#24, 0xC01000#24, 0x409000#24, 0x809000#24, 0x21FF00#24, 0xE20000#24, 0x647F00#24, 0xA48000#24].all
      fun a => decode (.taddr a) = .error (.noTable a)) = true := by decide

/-- StepRunsTheDecodedOperation: its four cases. -/
theorem witness_step_runs :
    (let s : State := { State.reset with unitReq := some (.dir 1#1) }
     s.noReset = true ∧ decode (unitWord (.dir 1#1)) = .ok .unshiftrows) ∧
    ((underway .finalRound).noReset = true ∧ (underway .finalRound).unitReq = none ∧
      (underway .finalRound).seq ≠ .done ∧ decode (.seq (seqWord .finalRound)) = .ok .finalRound) ∧
    ((withCommand 0x01#136).noReset = true ∧ (withCommand 0x01#136).host = .command 0x01#136 :: [] ∧
      decode (.cmd 0x01#136) = .ok .blksz) ∧
    (State.reset.noReset = true ∧ State.reset.unitReq = none ∧ State.reset.seq = .done ∧ State.reset.host = []) := by
  decide

/-- StepTakesACommandByTheAcceptanceProcedure, EncNetEffect and DecNetEffect. -/
theorem witness_command :
    (let s := withCommand (cmdWord 0x02 0xFFFFFFF0 16 0 0xFFFFFFFF)
     s.noReset = true ∧ s.unitReq = none ∧ s.seq = .done ∧ s.resetLine = [] ∧ Memory.wf s.buf = true ∧
       s.host = .command (cmdWord 0x02 0xFFFFFFF0 16 0 0xFFFFFFFF) :: []) ∧
    (let s := withCommand (cmdWord 0x03 0xFFFFFFF0 16 0 0xFFFFFFFF)
     s.noReset = true ∧ s.unitReq = none ∧ s.seq = .done ∧ s.resetLine = [] ∧ Memory.wf s.buf = true ∧
       s.host = .command (cmdWord 0x03 0xFFFFFFF0 16 0 0xFFFFFFFF) :: []) ∧
    (0 : Addr).toNat + (0xFFFFFFFF : Addr).toNat ≤ 2 ^ 32 ∧ (0xFFFFFFF0 : Addr).toNat + (16 : Addr).toNat ≤ 2 ^ 32 ∧
    16 ≤ (0xFFFFFFFF : Addr).toNat ∧ 16 ≤ (16 : Addr).toNat := by decide +kernel

/-- HostStoreWritesItsByte. -/
theorem witness_store :
    let s : State := { State.reset with host := [.store 0xFFFFFFFF 0xEE#8] }
    Memory.wf s.buf = true ∧ s.noReset = true ∧ s.unitReq = none ∧ s.seq = .done ∧
      s.host = .store 0xFFFFFFFF 0xEE#8 :: [] := by decide

/-- PortIsNotReadyDuringACommand: a command waits at the port while another runs. -/
theorem witness_busy :
    let s : State := { underway .finalRound with host := [.command 0x01#136] }
    s.seq ≠ .done ∧ ∃ t, step s = .next t := by
  refine ⟨by decide, ?_⟩
  obtain ⟨m, hm⟩ := storeBlock_fits (base := 0xFFFFFFF0) (by decide) (underway .finalRound).buf
    (foldB Config.tables.ox (expandB Config.tables.om (permute 0 State.reset.w)))
  rw [step_of_underway (by rfl) rfl (by decide)]
  exact ⟨_, finalRound_next _ _ hm⟩

/-- BlkszAnswersSixteen, EncIsAccepted, DecIsAccepted: slices that end at `2^32`, the smallest lengths. -/
theorem witness_accept :
    State.reset.seq = .done ∧ (0xFFFFFFF0 : Addr).toNat + (16 : Addr).toNat ≤ 2 ^ 32 ∧ 16 ≤ (16 : Addr).toNat ∧
    (0xFFFFFF01#136).toNat % 256 = 1 := by decide

/-- ReservedOpcodesAreIllegalCommands, each of its four cases. -/
theorem witness_illegal :
    State.reset.seq = .done ∧ (0x00 : Byte) = 0x00 ∧ 4 ≤ (0x04 : Byte).toNat ∧ 4 ≤ (0xFF : Byte).toNat ∧
    ((0x03 : Byte) = 0x03 ∧ DirCap.encOnly = .encOnly) ∧ ((0x02 : Byte) = 0x02 ∧ DirCap.decOnly = .decOnly) := by
  decide

/-- SlicesPastTheEndAreBad: either slice, by one address; both opcodes in an instance that has them. -/
theorem witness_bad_slice :
    2 ^ 32 < (0xFFFFFFF1 : Addr).toNat + (16 : Addr).toNat ∧ ¬ 2 ^ 32 < (0xFFFFFFF0 : Addr).toNat + (16 : Addr).toNat ∧
    ((0x02 : Byte) = 0x02 ∧ DirCap.encOnly ≠ .decOnly) ∧ ((0x03 : Byte) = 0x03 ∧ DirCap.decOnly ≠ .encOnly) := by decide

/-- ShortSourcesAreRefused, ShortDestinationsAreRefused. -/
theorem witness_short :
    (0 : Addr).toNat + (15 : Addr).toNat ≤ 2 ^ 32 ∧ (15 : Addr).toNat < 16 ∧ 16 ≤ (16 : Addr).toNat ∧
    (0xFFFFFFF1 : Addr).toNat + (15 : Addr).toNat ≤ 2 ^ 32 := by decide

/-- OperationsStopOnlyWhereNamed: a refusal, and both faults. -/
theorem witness_stops :
    exec (.mainRound 9) State.reset = .refused .noRound ∧ exec (.get4TY 9 0 0) State.reset = .refused .noTable ∧
    Instr.wf (.mainRound 8) = true ∧
    exec .inputUnmask { State.reset with srcAddr := 0xFFFFFFF1 } = .fault (.bufAddress 0xFFFFFFF1) ∧
    exec .finalRound { State.reset with dstAddr := 0xFFFFFFF1 } = .fault (.bufAddress 0xFFFFFFF1) :=
  ⟨rfl, rfl, rfl, by simp only [exec, execInputUnmask, inputUnmask_eq]; rfl, by
    simp only [exec, execFinalRound]
    exact finalRound_fault Config.tables { State.reset with dstAddr := 0xFFFFFFF1 } (by decide)⟩

/-- PermIsChosenByTheDirection. -/
theorem witness_perm :
    (underway .finalRound).dir = 0#1 ∧ ({ underway .finalRound with dir := 1#1 } : State).dir = 1#1 := by decide

/-- FoldstepPacksLooksUpAndJoins: the last table of each space. -/
theorem witness_foldstep :
    (NibSel.ix 31 14).wf = true ∧ (NibSel.ox 31 14).wf = true ∧ (NibSel.hx 8 31 2).wf = true ∧
    (NibSel.lx 8 31 2).wf = true := by decide

/-- FoldLanesAreIndependent: partials that differ in the other half of the byte, and in another byte. -/
theorem witness_lanes :
    (∀ j : Fin 2, hi (#v[#v[0x12#8, 0x34#8], #v[0x56#8, 0x78#8]] : Vector (Vector Byte 2) 2)[j][(0 : Fin 2)] =
      hi (#v[#v[0x1F#8, 0x00#8], #v[0x50#8, 0x00#8]] : Vector (Vector Byte 2) 2)[j][(0 : Fin 2)]) ∧
    (∀ j : Fin 2, lo (#v[#v[0x12#8, 0x34#8], #v[0x56#8, 0x78#8]] : Vector (Vector Byte 2) 2)[j][(1 : Fin 2)] =
      lo (#v[#v[0x12#8, 0xF4#8], #v[0x56#8, 0xE8#8]] : Vector (Vector Byte 2) 2)[j][(1 : Fin 2)]) := by decide +kernel

/-- InputUnmaskReadsExpandsAndFolds, CompositeOperationsInvokeTheirUnits, FinalRoundWritesTheBlockAndResponds,
AcceptedCommandWritesCrypt. -/
theorem witness_underway :
    let s := underway .inputUnmask
    Memory.wf s.buf = true ∧ s.seq = .inputUnmask ∧ s.unitReq = none ∧ s.resetLine = [] ∧
      s.srcAddr.toNat + 16 ≤ 2 ^ 32 ∧ s.dstAddr.toNat + 16 ≤ 2 ^ 32 := by decide

/-- OutcomeDependsOnTheSourceBytesAlone: the same source bytes at different places, in states that differ. -/
theorem witness_two_commands :
    let s := underway .inputUnmask
    let u : State :=
      { underway .inputUnmask with
        srcAddr := 0x10, dstAddr := 0x18, buf := [(0x10, 0x01#8), (0x1F, 0x02#8)], w := Vector.replicate 16 0xEE#8 }
    Memory.wf u.buf = true ∧ u.seq = .inputUnmask ∧ u.unitReq = none ∧ u.resetLine = [] ∧
      u.srcAddr.toNat + 16 ≤ 2 ^ 32 ∧ u.dstAddr.toNat + 16 ≤ 2 ^ 32 ∧ s.dir = u.dir ∧
      bytesAt s.buf s.srcAddr = bytesAt u.buf u.srcAddr := by decide +kernel

/-- ColumnsCommute, and the other columns of ColumnTakesTheHighThenTheLowPath and FoldwFoldsLeftToRight. -/
theorem witness_columns : (0 : Fin 4) ≠ 3 ∧ (11 : Fin 16).val / 4 ≠ (3 : Fin 4).val := by decide

/-- SequencerFollowsItsFixedOrder: a step from each of its four cases. -/
theorem witness_sequencer :
    ∀ q ∈ [Seq.inputUnmask, .mainRound 8, .mainRound 0, .finalRound],
      (underway q).noReset = true ∧ (underway q).unitReq = none ∧ (underway q).seq ≠ .done ∧
        ∃ t, step (underway q) = .next t := by
  have next : ∀ q ≠ Seq.done, ∃ t, step (underway q) = .next t := by
    intro q hq
    rw [step_of_underway (by rfl) rfl (by exact hq)]
    cases q with
    | done => exact absurd rfl hq
    | mainRound r => exact ⟨_, rfl⟩
    | inputUnmask =>
      simp only [underway, inputUnmask_eq]
      exact ⟨_, if_pos (by decide)⟩
    | finalRound =>
      obtain ⟨m, hm⟩ := storeBlock_fits (base := 0xFFFFFFF0) (by decide) (underway .finalRound).buf
        (foldB Config.tables.ox (expandB Config.tables.om (permute 0 State.reset.w)))
      exact ⟨_, finalRound_next _ _ hm⟩
  intro q hq
  refine ⟨rfl, rfl, ?_, next q ?_⟩ <;> (rintro rfl; revert hq; decide)

/-- Every instance has a cipher command, so one is accepted: DoneIsLeftOnlyByAnAcceptedCipherCommand, and the second
case of LatchesAreWrittenOnlyAtAcceptance and of AcceptanceRespondsOrStarts. -/
theorem witness_accepted :
    ∃ op : Byte, (op = 0x02 ∨ op = 0x03) ∧
      acceptCommand Config.dircap op 0xFFFFFFF0 16 0 16 State.reset =
        (State.reset.latch (opcodeDir op) 0xFFFFFFF0 16 0 16).setSeq .inputUnmask := by
  cases h : Config.dircap with
  | decOnly => exact ⟨0x03, .inr rfl, by decide +kernel⟩
  | both => exact ⟨0x02, .inl rfl, by decide +kernel⟩
  | encOnly => exact ⟨0x02, .inl rfl, by decide +kernel⟩

/-- DoneIsLeftOnlyByAnAcceptedCipherCommand. -/
theorem witness_done_left : ∃ s t : State, s.seq = .done ∧ step s = .next t ∧ t.seq ≠ .done := by
  obtain ⟨op, _, h⟩ := witness_accepted
  generalize hc : cmdWord op 0xFFFFFFF0 16 0 16 = c
  have hs := step_of_command (s := withCommand c) (c := c) (rest := []) rfl rfl rfl rfl
  rw [show ({ withCommand c with resetLine := (withCommand c).resetLine.tail, host := [] } : State) = State.reset from rfl,
    runWord_command c rfl] at hs
  rw [← hc] at hs
  simp only [cmdOpcode_cmdWord, cmdDstAddr_cmdWord, cmdDstLen_cmdWord, cmdSrcAddr_cmdWord, cmdSrcLen_cmdWord, h] at hs
  exact ⟨_, _, rfl, hs, by simp⟩

/-- OnlyFinalRoundWritesTheBuffer, OnlyTheDatapathWritesTheWorkingState, LatchesAreWrittenOnlyAtAcceptance. -/
theorem witness_exec :
    Instr.get16IM 0 0 ≠ .finalRound ∧
      exec (.get16IM 0 0) State.reset = .next { State.reset with out := .block (Config.tables.im 0 0) } :=
  ⟨by decide, rfl⟩

/-- ResetIdlesTheBlock: in the idle block and during a command. -/
theorem witness_reset :
    (let s : State := { State.reset with resetLine := [true] }
     Memory.wf s.buf = true ∧ s.noReset = false ∧ s.seq = .done) ∧
    (let s : State := { underway (.mainRound 4) with resetLine := [true, false] }
     Memory.wf s.buf = true ∧ s.noReset = false ∧ s.seq ≠ .done ∧ s.dstAddr.toNat + 16 ≤ 2 ^ 32) := by decide

/-- CanonicalMemoryIsItsBytes. -/
theorem witness_canonical : Memory.wf [(0, 0x01#8), (0xFFFFFFFF, 0xFF#8)] = true := by decide

/-- EveryStepKeepsTheInvariant and EveryStepFromTheInvariantCompletes: the reset state, and a command under way. -/
theorem witness_invariant_reset : State.reset.Inv ∧ State.reset.unitReq = none ∧ step State.reset = .next State.reset :=
  ⟨⟨rfl, fun h => absurd rfl h, fun h => absurd rfl h⟩, rfl, step_of_idle (s := State.reset) rfl rfl rfl rfl⟩
theorem witness_invariant_underway : ∃ d : BitVec 1, ({ underway (.mainRound 0) with dir := d } : State).Inv := by
  have slices (d : BitVec 1) : ({ underway (.mainRound 0) with dir := d } : State).SlicesFit := fun _ => by
    show (0xFFFFFFF0 : Addr).toNat + (16 : Addr).toNat ≤ 2 ^ 32 ∧ (0xFFFFFFF0 : Addr).toNat + (16 : Addr).toNat ≤ 2 ^ 32 ∧
      16 ≤ (16 : Addr).toNat ∧ 16 ≤ (16 : Addr).toNat
    decide
  cases h : Config.dircap with
  | decOnly => exact ⟨1, by decide +kernel, slices 1, fun _ => by rw [h]; decide +kernel⟩
  | both => exact ⟨0, by decide +kernel, slices 0, fun _ => by rw [h]; decide +kernel⟩
  | encOnly => exact ⟨0, by decide +kernel, slices 0, fun _ => by rw [h]; decide +kernel⟩

end Sys2Proof.Tests
end

namespace Sys2Proof.Machine

/-! ### BUF: its canonical form taken apart, and that its bytes fix it -/

theorem Memory.wf_cons {a : Nat} {v : Byte} {rest : Memory} :
    Memory.wf ((a, v) :: rest) = true ↔
      a < 2 ^ 32 ∧ v ≠ unlistedByte ∧ Memory.above (a + 1) rest = true ∧ Memory.wf rest = true := by
  simp [Memory.wf, and_assoc]

theorem Memory.head_ne_unlisted {a : Nat} {v : Byte} {rest : Memory} (h : Memory.wf ((a, v) :: rest) = true) :
    v ≠ unlistedByte := by
  obtain ⟨-, hv, -⟩ := Memory.wf_cons.mp h
  exact hv

theorem Memory.wf_tail {p : Host.Cell} {rest : Memory} (h : Memory.wf (p :: rest) = true) : Memory.wf rest = true := by
  obtain ⟨-, -, -, hrest⟩ := Memory.wf_cons.mp h
  exact hrest

/-- Below its first entry a canonical memory reads the unlisted byte. -/
theorem Memory.read_lt_head {b x : Nat} {v : Byte} {rest : Memory} (hwf : Memory.wf ((b, v) :: rest) = true)
    (hx : x < b) : Memory.read ((b, v) :: rest) x = unlistedByte :=
  Memory.read_of_above hwf (low := b) (by simp [Memory.above]) hx

@[simp] theorem Memory.read_head (a : Nat) (v : Byte) (rest : Memory) : Memory.read ((a, v) :: rest) a = v := by
  simp [Memory.read_cons]

/-- Where two canonical memories read alike, neither starts after the other. -/
theorem Memory.head_le_of_read_eq {a b : Nat} {u v : Byte} {m n : Memory} (hm : Memory.wf ((a, u) :: m) = true)
    (hn : Memory.wf ((b, v) :: n) = true)
    (h : ∀ x, Memory.read ((a, u) :: m) x = Memory.read ((b, v) :: n) x) : b ≤ a := by
  by_contra hlt
  have hu : u = unlistedByte := by simpa [Memory.read_lt_head hn (not_le.mp hlt)] using h a
  exact Memory.head_ne_unlisted hm hu

/-- Memories that read alike with a common first entry have tails that read alike. -/
theorem Memory.read_tail_eq {a : Nat} {u v : Byte} {m n : Memory} (hm : Memory.wf ((a, u) :: m) = true)
    (hn : Memory.wf ((a, v) :: n) = true)
    (h : ∀ x, Memory.read ((a, u) :: m) x = Memory.read ((a, v) :: n) x) (x : Nat) :
    Memory.read m x = Memory.read n x := by
  obtain ⟨-, -, habove, hm⟩ := Memory.wf_cons.mp hm
  obtain ⟨-, -, habove', hn⟩ := Memory.wf_cons.mp hn
  by_cases hx : x = a
  · rw [Memory.read_of_above hm habove (by omega), Memory.read_of_above hn habove' (by omega)]
  · simpa [Memory.read_cons, hx] using h x

/-- A canonical memory with an entry does not read as the empty one. -/
theorem Memory.exists_read_ne_unlisted {p : Host.Cell} {m : Memory} (hwf : Memory.wf (p :: m) = true) :
    ∃ a, Memory.read (p :: m) a ≠ unlistedByte :=
  ⟨p.1, by rw [Memory.read_head]; exact Memory.head_ne_unlisted hwf⟩

/-- Settles O53, by induction on the entries: the first addresses agree, then the first bytes, then the tails. -/
theorem canonicalMemoryIsItsBytes : Obligations.CanonicalMemoryIsItsBytes := by
  intro m
  induction m with
  | nil =>
    intro n _ hn h
    cases n with
    | nil => rfl
    | cons q n =>
      obtain ⟨a, ha⟩ := Memory.exists_read_ne_unlisted hn
      exact absurd (h a).symm ha
  | cons p m ih =>
    intro n hm hn h
    cases n with
    | nil =>
      obtain ⟨a, ha⟩ := Memory.exists_read_ne_unlisted hm
      exact absurd (h a) ha
    | cons q n =>
      obtain ⟨a, u⟩ := p
      obtain ⟨b, v⟩ := q
      obtain rfl : a = b :=
        le_antisymm (Memory.head_le_of_read_eq hn hm fun x => (h x).symm) (Memory.head_le_of_read_eq hm hn h)
      obtain rfl : u = v := by simpa using h a
      rw [ih n (Memory.wf_tail hm) (Memory.wf_tail hn) (Memory.read_tail_eq hm hn h)]

/-- Settles O12: the step is the store, and a read after a write answers the rest. -/
theorem hostStoreWritesItsByte : Obligations.HostStoreWritesItsByte := by
  intro s a v rest hwf hr hu hs hh
  refine ⟨Memory.write s.buf a.toNat v, step_of_store hr hu hs hh, ?_, fun b hb => ?_⟩
  · rw [Memory.read_write hwf, if_pos rfl]
  · rw [Memory.read_write hwf, if_neg hb]

/-! ### Power-up -/

/-- Between commands the invariant asks only for BUF's canonical form (R48, R71 speak of a command under way). -/
theorem State.inv_of_done {s : State} (hs : s.seq = .done) (hwf : Memory.wf s.buf = true) : s.Inv :=
  ⟨hwf, fun h => absurd hs h, fun h => absurd hs h⟩

/-- Settles O52: with nothing from the host and no sample at the reset input, the step idles. -/
theorem resetStateIsIdle : Obligations.ResetStateIsIdle :=
  ⟨rfl, rfl, rfl, step_of_idle (s := State.reset) rfl rfl rfl rfl⟩

/-- Settles O54: State.reset is in DONE with an empty BUF. -/
theorem resetMeetsTheInvariant : Obligations.ResetMeetsTheInvariant := State.inv_of_done rfl rfl

/-! ### What acceptance can do (R138) -/

/-- Every check of R138 is passed: the operands of a cipher command that starts in a block strapped `cap`. -/
structure PassesChecks (cap : DirCap) (op : Byte) (dstAddr dstLen srcAddr srcLen : Addr) : Prop where
  notReserved : reservedOpcode cap op = false
  cipher : op = 0x02#8 ∨ op = 0x03#8
  srcFits : srcAddr.toNat + srcLen.toNat ≤ 2 ^ 32
  dstFits : dstAddr.toNat + dstLen.toNat ≤ 2 ^ 32
  srcLong : 16 ≤ srcLen.toNat
  dstLong : 16 ≤ dstLen.toNat

section
variable {cap : DirCap} {op : Byte} {dstAddr dstLen srcAddr srcLen : Addr}

theorem cipher_of_not_reserved (h : reservedOpcode cap op = false) (hop : op ≠ 0x01#8) :
    op = 0x02#8 ∨ op = 0x03#8 := by
  by_contra hc
  obtain ⟨h2, h3⟩ := not_or.mp hc
  exact absurd ((reservedOpcode_iff cap op).mpr (.inl ⟨hop, h2, h3⟩)) (by simp [h])

/-- The acceptance procedure does nothing, answers, or starts the command. -/
theorem acceptCommand_cases (cap : DirCap) (op : Byte) (dstAddr dstLen srcAddr srcLen : Addr) (s : State) :
    (s.seq ≠ .done ∧ acceptCommand cap op dstAddr dstLen srcAddr srcLen s = s) ∨
    (s.seq = .done ∧ ∃ r, acceptCommand cap op dstAddr dstLen srcAddr srcLen s = s.respond r) ∨
    (s.seq = .done ∧ PassesChecks cap op dstAddr dstLen srcAddr srcLen ∧
      acceptCommand cap op dstAddr dstLen srcAddr srcLen s =
        (s.latch (opcodeDir op) dstAddr dstLen srcAddr srcLen).setSeq .inputUnmask) := by
  by_cases hs : s.seq = .done
  swap
  · exact .inl ⟨hs, acceptCommand_underway hs⟩
  refine .inr ?_
  cases hres : reservedOpcode cap op with
  | true => exact .inl ⟨hs, _, acceptCommand_reserved hs hres⟩
  | false =>
    by_cases hop : op = 0x01#8
    · subst hop
      exact .inl ⟨hs, _, acceptCommand_blksz hs⟩
    rw [acceptCommand_cipher hs hres hop]
    split_ifs with hslice hsrc hdst
    · exact .inl ⟨hs, _, rfl⟩
    · exact .inl ⟨hs, _, rfl⟩
    · exact .inl ⟨hs, _, rfl⟩
    · exact .inr ⟨hs, ⟨hres, cipher_of_not_reserved hres hop, by omega, by omega, by omega, by omega⟩, rfl⟩

/-- BLKSZ is answered or ignored, never started (R135). -/
theorem not_passesChecks_blksz : ¬ PassesChecks cap 0x01#8 dstAddr dstLen srcAddr srcLen :=
  fun h => absurd h.cipher (by decide)

@[simp] theorem acceptCommand_w (s : State) : (acceptCommand cap op dstAddr dstLen srcAddr srcLen s).w = s.w := by
  obtain ⟨-, h⟩ | ⟨-, r, h⟩ | ⟨-, -, h⟩ := acceptCommand_cases cap op dstAddr dstLen srcAddr srcLen s <;> simp [h]

/-- A command keeps DIR and the latches or starts, from DONE, with its own operands latched (R22, R23). -/
theorem acceptCommand_latches (s t : State) (h : acceptCommand cap op dstAddr dstLen srcAddr srcLen s = t) :
    sameLatches s t ∨
      (s.seq = .done ∧ PassesChecks cap op dstAddr dstLen srcAddr srcLen ∧ t.seq = .inputUnmask ∧
        t.dir = opcodeDir op ∧ t.dstAddr = dstAddr ∧ t.dstLen = dstLen ∧ t.srcAddr = srcAddr ∧ t.srcLen = srcLen) := by
  subst h
  obtain ⟨-, h⟩ | ⟨-, r, h⟩ | ⟨hs, hp, h⟩ := acceptCommand_cases cap op dstAddr dstLen srcAddr srcLen s
  · exact .inl (by simp [h, sameLatches])
  · exact .inl (by simp [h, sameLatches])
  · exact .inr (by simp [h, hs, hp])

end

/-! ### What one operation can do -/

theorem get4_next {T : Fin 9 → Fin 16 → Byte → Word} {round pos : BitVec 4} {idx : Byte} {s t : State}
    (h : get4 T round pos idx s = .next t) : ∃ v, t = s.setOut v := by
  unfold get4 at h
  split at h <;> cases h
  exact ⟨_, rfl⟩

theorem get1_next {T : TableStore} {sel : NibSel} {idx : Byte} {s t : State} (h : get1 T sel idx s = .next t) :
    ∃ v, t = s.setOut v := by
  unfold get1 at h
  split at h <;> cases h
  exact ⟨_, rfl⟩

theorem execFoldstep_next {th tl : NibSel} {acc nxt : Byte} {s t : State} (h : execFoldstep th tl acc nxt s = .next t) :
    ∃ v, t = s.setOut v := by
  unfold execFoldstep at h
  split at h <;> cases h
  exact ⟨_, rfl⟩

theorem execExpandw_next {path : Path} {round : BitVec 4} {col : BitVec 2} {s t : State}
    (h : execExpandw path round col s = .next t) : ∃ v, t = s.setPw v := by
  unfold execExpandw at h
  split at h <;> cases h
  exact ⟨_, rfl⟩

theorem execFoldw_next {path : Path} {round : BitVec 4} {col : BitVec 2} {s t : State}
    (h : execFoldw path round col s = .next t) : ∃ v, t = s.setW v := by
  unfold execFoldw at h
  split at h <;> cases h
  exact ⟨_, rfl⟩

theorem execColumn_next {round : BitVec 4} {col : BitVec 2} {s t : State} (h : execColumn round col s = .next t) :
    ∃ w pw, t = { s with w := w, pw := pw } := by
  unfold execColumn at h
  split at h <;> cases h
  exact ⟨_, _, columnW_eq _ _ _ _⟩

theorem execMainRound_next {round : BitVec 4} {s t : State} (h : execMainRound round s = .next t) :
    ∃ r, round = BitVec.ofNat 4 r.val ∧ t = mainRound Config.tables r s := by
  unfold execMainRound at h
  split at h
  · next r hr =>
    cases h
    exact ⟨r, roundOf_eq_some.mp hr, rfl⟩
  · cases h

/-- INPUT_UNMASK completes only where the 16 source addresses exist. -/
theorem inputUnmask_next_inv {T : TableStore} {s t : State} (h : inputUnmask T s = .next t) :
    s.srcAddr.toNat + 16 ≤ 2 ^ 32 ∧ ∃ w pb, t = { s with w := w, pb := pb, seq := .mainRound 0 } := by
  rw [inputUnmask_eq] at h
  split at h
  · next hfit =>
    cases h
    exact ⟨hfit, _, _, rfl⟩
  · cases h

/-- FINAL_ROUND completes only with its Block stored. -/
theorem finalRound_next_inv {T : TableStore} {s t : State} (h : finalRound T s = .next t) :
    ∃ w pb m, storeBlock s.buf s.dstAddr w = some m ∧
      t = { s with w := w, pb := pb, buf := m, resp := s.resp ++ [⟨.ok, 0⟩], seq := .done } := by
  cases hm : storeBlock s.buf s.dstAddr (foldB T.ox (expandB T.om (permute s.dir s.w))) with
  | some m =>
    rw [finalRound_next T s hm] at h
    cases h
    exact ⟨_, _, m, hm, rfl⟩
  | none =>
    have hfit : ¬ s.dstAddr.toNat + 16 ≤ 2 ^ 32 := fun hfit => by
      obtain ⟨m, hm'⟩ := storeBlock_fits hfit s.buf (foldB T.ox (expandB T.om (permute s.dir s.w)))
      exact absurd (hm.symm.trans hm') (by simp)
    rw [finalRound_fault T s hfit] at h
    cases h

/-- The units that overwrite W or a column of it when run on their own (R90, R91, R93, R102, R111, R122). -/
def overwritesW : Instr → Bool
  | .shiftrows | .unshiftrows | .perm | .foldw _ _ _ | .column _ _ | .foldb _ => true
  | _ => false

/-- The operations that write PB, PW and `out` at most: lookups, expansions, FOLDSTEP, CRYPT (log 12) and DONE. -/
def writesScratchOnly : Instr → Bool
  | .blksz | .enc _ _ _ _ | .dec _ _ _ _ | .inputUnmask | .mainRound _ | .finalRound => false
  | i => !overwritesW i

/-- Everything an operation that completes can have done to `s`: the commands are the acceptance procedure; the
operations of `writesScratchOnly` write at most PB, PW and `out`; the units of `overwritesW` write W and at most PW
besides; the three sequencer operations also write SEQ, and FINAL_ROUND BUF and the response. -/
inductive Effect (s : State) : Instr → State → Prop
  | blksz : Effect s .blksz (acceptCommand Config.dircap 0x01#8 0 0 0 0 s)
  | enc (dstAddr dstLen srcAddr srcLen : Addr) :
    Effect s (.enc dstAddr dstLen srcAddr srcLen) (acceptCommand Config.dircap 0x02#8 dstAddr dstLen srcAddr srcLen s)
  | dec (dstAddr dstLen srcAddr srcLen : Addr) :
    Effect s (.dec dstAddr dstLen srcAddr srcLen) (acceptCommand Config.dircap 0x03#8 dstAddr dstLen srcAddr srcLen s)
  | scratch {i : Instr} (hi : writesScratchOnly i = true) (pb : Vector Block 16) (pw : Vector Word 4)
    (out : UnitResult) : Effect s i { s with pb := pb, pw := pw, out := out }
  | unit {i : Instr} (hi : overwritesW i = true) (w : Block) (pw : Vector Word 4) :
    Effect s i { s with w := w, pw := pw }
  | inputUnmask (hfit : s.srcAddr.toNat + 16 ≤ 2 ^ 32) (w : Block) (pb : Vector Block 16) :
    Effect s .inputUnmask { s with w := w, pb := pb, seq := .mainRound 0 }
  | mainRound (r : Fin 9) (w : Block) (pw : Vector Word 4) :
    Effect s (.mainRound (BitVec.ofNat 4 r.val)) { s with w := w, pw := pw, seq := nextRound r }
  | finalRound (w : Block) (pb : Vector Block 16) (m : Memory) (hm : storeBlock s.buf s.dstAddr w = some m) :
    Effect s .finalRound { s with w := w, pb := pb, buf := m, resp := s.resp ++ [⟨.ok, 0⟩], seq := .done }

namespace Effect
variable {i : Instr} {s t : State}

theorem of_setOut (hi : writesScratchOnly i = true) (h : ∃ v, t = s.setOut v) : Effect s i t := by
  obtain ⟨v, rfl⟩ := h
  exact .scratch hi s.pb s.pw v

theorem of_setPw (hi : writesScratchOnly i = true) (h : ∃ v, t = s.setPw v) : Effect s i t := by
  obtain ⟨v, rfl⟩ := h
  exact .scratch hi s.pb v s.out

theorem of_setW (hi : overwritesW i = true) (h : ∃ v, t = s.setW v) : Effect s i t := by
  obtain ⟨v, rfl⟩ := h
  exact .unit hi v s.pw

end Effect

/-- The inversion of `exec`: an operation that completes has one of the effects. -/
theorem exec_effect {i : Instr} {s t : State} (h : exec i s = .next t) : Effect s i t := by
  cases i with
  | blksz => cases h; exact .blksz
  | enc dstAddr dstLen srcAddr srcLen => cases h; exact .enc ..
  | dec dstAddr dstLen srcAddr srcLen => cases h; exact .dec ..
  | inputUnmask =>
    obtain ⟨hfit, w, pb, rfl⟩ := inputUnmask_next_inv h
    exact .inputUnmask hfit w pb
  | mainRound round =>
    obtain ⟨r, rfl, rfl⟩ := execMainRound_next h
    rw [mainRound_eq]
    exact .mainRound r ..
  | finalRound =>
    obtain ⟨w, pb, m, hm, rfl⟩ := finalRound_next_inv h
    exact .finalRound w pb m hm
  | done => cases h; exact .scratch rfl s.pb s.pw s.out
  | shiftrows => cases h; exact .of_setW rfl ⟨_, rfl⟩
  | unshiftrows => cases h; exact .of_setW rfl ⟨_, rfl⟩
  | perm => cases h; exact .of_setW rfl ⟨_, rfl⟩
  | foldw path round col => exact .of_setW rfl (execFoldw_next h)
  | foldb side => cases h; exact .of_setW rfl ⟨_, rfl⟩
  | column round col =>
    obtain ⟨w, pw, rfl⟩ := execColumn_next h
    exact .unit rfl w pw
  | expandw path round col => exact .of_setPw rfl (execExpandw_next h)
  | expandb side => cases h; exact .scratch rfl _ s.pw s.out
  | get16IM pos idx => cases h; exact .of_setOut rfl ⟨_, rfl⟩
  | get16OM pos idx => cases h; exact .of_setOut rfl ⟨_, rfl⟩
  | get4TY round pos idx => exact .of_setOut rfl (get4_next h)
  | get4MB round pos idx => exact .of_setOut rfl (get4_next h)
  | get1IX npos step idx => exact .of_setOut rfl (get1_next h)
  | get1HX round npos step idx => exact .of_setOut rfl (get1_next h)
  | get1LX round npos step idx => exact .of_setOut rfl (get1_next h)
  | get1OX npos step idx => exact .of_setOut rfl (get1_next h)
  | foldstep th tl acc nxt => exact .of_setOut rfl (execFoldstep_next h)
  | crypt dir src => cases h; exact .of_setOut rfl ⟨_, rfl⟩

/-- Settles O48, over the effects: the commands and the scratch writers keep W, the other effects are excepted. -/
theorem onlyTheDatapathWritesTheWorkingState : Obligations.OnlyTheDatapathWritesTheWorkingState := by
  intro i s t h
  cases exec_effect h with
  | blksz => exact acceptCommand_w s
  | enc dstAddr dstLen srcAddr srcLen => exact acceptCommand_w s
  | dec dstAddr dstLen srcAddr srcLen => exact acceptCommand_w s
  | scratch hi pb pw out => split <;> trivial
  | unit hi w pw =>
    revert hi
    cases i <;> simp [overwritesW]
  | inputUnmask hfit w pb => trivial
  | mainRound r w pw => trivial
  | finalRound w pb m hm => trivial

/-- Settles O49, over the effects: ENC and DEC are the acceptance procedure, whose start latches all five; BLKSZ never
starts; no other effect touches a latch. -/
theorem latchesAreWrittenOnlyAtAcceptance : Obligations.LatchesAreWrittenOnlyAtAcceptance := by
  intro i s t h
  cases exec_effect h with
  | blksz =>
    obtain hl | ⟨-, hp, -⟩ := acceptCommand_latches s _ rfl
    · exact .inl hl
    · exact absurd hp not_passesChecks_blksz
  | enc dstAddr dstLen srcAddr srcLen =>
    obtain hl | ⟨hs, -, hseq, hdir, hlatches⟩ := acceptCommand_latches s _ rfl
    · exact .inl hl
    · exact .inr ⟨dstAddr, dstLen, srcAddr, srcLen, hs, hseq, .inl ⟨rfl, hdir⟩, hlatches⟩
  | dec dstAddr dstLen srcAddr srcLen =>
    obtain hl | ⟨hs, -, hseq, hdir, hlatches⟩ := acceptCommand_latches s _ rfl
    · exact .inl hl
    · exact .inr ⟨dstAddr, dstLen, srcAddr, srcLen, hs, hseq, .inr ⟨rfl, hdir⟩, hlatches⟩
  | scratch hi pb pw out => exact .inl ⟨rfl, rfl, rfl, rfl, rfl⟩
  | unit hi w pw => exact .inl ⟨rfl, rfl, rfl, rfl, rfl⟩
  | inputUnmask hfit w pb => exact .inl ⟨rfl, rfl, rfl, rfl, rfl⟩
  | mainRound r w pw => exact .inl ⟨rfl, rfl, rfl, rfl, rfl⟩
  | finalRound w pb m hm => exact .inl ⟨rfl, rfl, rfl, rfl, rfl⟩

/-! ### The order of the sequencer (R21) -/

/-- The successor of a sequencer state; DONE keeps itself, for R21 gives it a successor only at acceptance. -/
def seqSuccessor : Seq → Seq
  | .inputUnmask => .mainRound 0
  | .mainRound r => nextRound r
  | .finalRound => .done
  | .done => .done

/-- A step of a command under way moves SEQ to its successor (R126). -/
theorem step_underway_seq {s t : State} (hr : s.noReset = true) (hu : s.unitReq = none) (hs : s.seq ≠ .done)
    (h : step s = .next t) : t.seq = seqSuccessor s.seq := by
  rw [step_of_underway hr hu hs] at h
  cases hq : s.seq with
  | inputUnmask =>
    rw [hq] at h
    obtain ⟨-, w, pb, rfl⟩ := inputUnmask_next_inv h
    rfl
  | mainRound r =>
    rw [hq] at h
    cases h
    rfl
  | finalRound =>
    rw [hq] at h
    obtain ⟨w, pb, m, -, rfl⟩ := finalRound_next_inv h
    rfl
  | done => exact absurd hq hs

theorem seqWord_nextRound (r : Fin 9) :
    seqWord (nextRound r) = if r = 8 then 0x20#6 else seqWord (.mainRound r) + 1 := by
  revert r
  decide

/-- The order of R21 in the words of R63. -/
theorem seqWord_seqSuccessor {q : Seq} (hq : q ≠ .done) :
    seqWord (seqSuccessor q) = (if q = .inputUnmask then 0x10#6
      else if q = .mainRound 8 then 0x20#6
      else if q = .finalRound then 0x30#6
      else seqWord q + 1) := by
  cases q with
  | inputUnmask => rfl
  | mainRound r => simp [seqSuccessor, seqWord_nextRound]
  | finalRound => rfl
  | done => exact absurd rfl hq

/-- Settles O45: each step takes the successor, and the successor's word is the one of R63. -/
theorem sequencerFollowsItsFixedOrder : Obligations.SequencerFollowsItsFixedOrder := by
  intro s t hr hu hs h
  rw [step_underway_seq hr hu hs h, seqWord_seqSuccessor hs]

/-! ### How DONE is left (R21, R124) -/

theorem taddrFields_format {a : BitVec 24} {i : Instr} (h : taddrFields a = some i) : i.format = .taddr := by
  unfold taddrFields at h
  split_ifs at h <;> (cases h; rfl)

/-- A unit request decodes to a permutation or a lookup, or is refused for naming no table (log 11, R70). -/
theorem decode_unitWord_cases (u : UnitReq) :
    (∃ i, decode (unitWord u) = .ok i ∧ (i.format = .dir ∨ i.format = .taddr)) ∨
      ∃ a, decode (unitWord u) = .error (.noTable a) := by
  cases u with
  | dir d =>
    simp only [unitWord, decode, decodeDir]
    split <;> exact .inl ⟨_, rfl, .inl rfl⟩
  | taddr a =>
    simp only [unitWord, decode, decodeTaddr]
    cases hf : taddrFields a with
    | none => exact .inr ⟨a, rfl⟩
    | some i =>
      cases hwf : i.wf with
      | false => exact .inr ⟨a, by simp [hwf]⟩
      | true => exact .inl ⟨i, by simp [hwf], .inr (taddrFields_format hf)⟩

/-- A permutation or a lookup leaves SEQ and the response port as they were. -/
theorem exec_dir_or_taddr {i : Instr} {s t : State} (hformat : i.format = .dir ∨ i.format = .taddr)
    (h : exec i s = .next t) : t.seq = s.seq ∧ t.resp = s.resp := by
  cases exec_effect h with
  | scratch hi pb pw out => exact ⟨rfl, rfl⟩
  | unit hi w pw => exact ⟨rfl, rfl⟩
  | _ => simp [Instr.format] at hformat

theorem runWord_unitWord_next {u : UnitReq} {s t : State} (h : runWord (unitWord u) s = .next t) :
    t.seq = s.seq ∧ t.resp = s.resp := by
  unfold runWord at h
  obtain ⟨i, hd, hformat⟩ | ⟨a, hd⟩ := decode_unitWord_cases u
  · rw [hd] at h
    exact exec_dir_or_taddr hformat h
  · rw [hd] at h
    cases h

section
variable {s t : State} {c : BitVec 136} {rest : List HostMove}

/-- A command taken in DONE that moves SEQ passes every check and is latched (R138). -/
theorem step_of_started_command (hr : s.noReset = true) (hu : s.unitReq = none) (hs : s.seq = .done)
    (hh : s.host = .command c :: rest) (h : step s = .next t) (ht : t.seq ≠ .done) :
    PassesChecks Config.dircap (cmdOpcode c) (cmdDstAddr c) (cmdDstLen c) (cmdSrcAddr c) (cmdSrcLen c) ∧
      t = (({ s with resetLine := s.resetLine.tail, host := rest } : State).latch (opcodeDir (cmdOpcode c))
        (cmdDstAddr c) (cmdDstLen c) (cmdSrcAddr c) (cmdSrcLen c)).setSeq .inputUnmask := by
  rw [step_of_command hr hu hs hh,
    runWord_command (s := { s with resetLine := s.resetLine.tail, host := rest }) c hs] at h
  cases h
  obtain ⟨hn, -⟩ | ⟨-, r, ha⟩ | ⟨-, hp, ha⟩ := acceptCommand_cases Config.dircap (cmdOpcode c) (cmdDstAddr c)
    (cmdDstLen c) (cmdSrcAddr c) (cmdSrcLen c) { s with resetLine := s.resetLine.tail, host := rest }
  · exact absurd hs hn
  · exact absurd (by simpa [ha] using hs) ht
  · exact ⟨hp, ha⟩

/-- A step that leaves DONE is none of the reset event, a unit request, idling and a host's store: it took a command of
the host. -/
theorem step_leaving_done (hs : s.seq = .done) (h : step s = .next t) (ht : t.seq ≠ .done) :
    s.noReset = true ∧ s.unitReq = none ∧ ∃ c rest, s.host = .command c :: rest := by
  cases hr : s.noReset with
  | false =>
    rw [step_of_reset hr] at h
    cases h
    exact absurd rfl ht
  | true =>
    cases hu : s.unitReq with
    | some u =>
      rw [step_of_unit hr hu] at h
      exact absurd ((runWord_unitWord_next h).1.trans hs) ht
    | none =>
      refine ⟨rfl, rfl, ?_⟩
      match hh : s.host with
      | [] =>
        rw [step_of_idle hr hu hs hh] at h
        cases h
        exact absurd hs ht
      | .command c :: rest => exact ⟨c, rest, rfl⟩
      | .store a v :: rest =>
        rw [step_of_store hr hu hs hh] at h
        cases h
        exact absurd hs ht

end

/-- `CMD.OPCODE` over plain numbers (R60). -/
theorem cmdOpcode_toNat (c : BitVec 136) : (cmdOpcode c).toNat = c.toNat % 256 := by
  rw [cmdOpcode_eq_ofNat, BitVec.toNat_ofNat]

/-- Settles O46: what left DONE is a start, whose opcode passed the checks and which answers nothing. -/
theorem doneIsLeftOnlyByAnAcceptedCipherCommand : Obligations.DoneIsLeftOnlyByAnAcceptedCipherCommand := by
  intro s t hs h ht
  obtain ⟨hr, hu, c, rest, hh⟩ := step_leaving_done hs h ht
  obtain ⟨hp, rfl⟩ := step_of_started_command hr hu hs hh h ht
  have hop : c.toNat % 256 = 2 ∨ c.toNat % 256 = 3 := by
    rw [← cmdOpcode_toNat]
    exact hp.cipher.imp (congrArg BitVec.toNat) (congrArg BitVec.toNat)
  exact ⟨rfl, c, rest, hh, hop, rfl⟩

end Sys2Proof.Machine

namespace Sys2Proof.Machine

/-! ### What BUF, the latches and the invariant are after one step (R48, R71) -/

@[simp] theorem acceptCommand_buf (cap : DirCap) (op : Byte) (dstAddr dstLen srcAddr srcLen : Addr) (s : State) :
    (acceptCommand cap op dstAddr dstLen srcAddr srcLen s).buf = s.buf := by
  obtain ⟨-, h⟩ | ⟨-, r, h⟩ | ⟨-, -, h⟩ := acceptCommand_cases cap op dstAddr dstLen srcAddr srcLen s <;> simp [h]

/-- Taking the step's sample and its request or host's move touches nothing else (R138). -/
theorem consume_eq (s : State) :
    ∃ host req, consume s = { s with resetLine := s.resetLine.tail, host := host, unitReq := req } := by
  unfold consume
  split
  · exact ⟨s.host, none, rfl⟩
  · split
    · exact ⟨s.host.tail, s.unitReq, rfl⟩
    · exact ⟨s.host, s.unitReq, rfl⟩

section
variable {i : Instr} {c : CodeWord} {s t : State}

/-- A word that completes ran its operation, or was answered as a reserved opcode (R151). -/
theorem runWord_cases (h : runWord c s = .next t) :
    (∃ i, exec i s = .next t) ∨ ∃ op, t = acceptCommand Config.dircap op 0 0 0 0 s := by
  unfold runWord at h
  cases hd : decode c with
  | ok i =>
    rw [hd] at h
    exact .inl ⟨i, h⟩
  | error e =>
    rw [hd] at h
    cases e with
    | reservedOpcode op => cases h; exact .inr ⟨op, rfl⟩
    | noSequencerState q => cases h
    | noTable a => cases h

/-- The inversion of `step`: the reset event, or on the state with its inputs taken a store of the host, an operation,
or the acceptance procedure on a reserved opcode. -/
theorem step_cases (h : step s = .next t) :
    t = resetEvent s ∨ (∃ a v, t = hostStore a v (consume s)) ∨ (∃ i, exec i (consume s) = .next t) ∨
      ∃ op, t = acceptCommand Config.dircap op 0 0 0 0 (consume s) := by
  unfold step at h
  cases hturn : turn s with
  | reset => rw [hturn] at h; cases h; exact .inl rfl
  | hostStore a v => rw [hturn] at h; cases h; exact .inr (.inl ⟨a, v, rfl⟩)
  | run c => rw [hturn] at h; exact .inr (.inr (runWord_cases h))

/-! ### BUF -/

/-- No operation but FINAL_ROUND writes BUF. -/
theorem exec_buf (hi : i ≠ .finalRound) (h : exec i s = .next t) : t.buf = s.buf := by
  cases exec_effect h with
  | blksz => exact acceptCommand_buf ..
  | enc dstAddr dstLen srcAddr srcLen => exact acceptCommand_buf ..
  | dec dstAddr dstLen srcAddr srcLen => exact acceptCommand_buf ..
  | scratch hi pb pw out => rfl
  | unit hi w pw => rfl
  | inputUnmask hfit w pb => rfl
  | mainRound r w pw => rfl
  | finalRound w pb m hm => exact absurd rfl hi

/-- Settles O47: BUF is kept as a whole. -/
theorem onlyFinalRoundWritesTheBuffer : Obligations.OnlyFinalRoundWritesTheBuffer :=
  fun _ _ _ hi h a => congrArg (Memory.read · a) (exec_buf hi h)

theorem exec_keeps_canonical (hwf : Memory.wf s.buf = true) (h : exec i s = .next t) : Memory.wf t.buf = true := by
  by_cases hi : i = .finalRound
  · subst hi
    obtain ⟨w, pb, m, hm, rfl⟩ := finalRound_next_inv h
    exact (storeBlock_spec hwf hm).1
  · rwa [exec_buf hi h]

/-- The free bytes a reset leaves at the destination are stored in canonical form (R171). -/
theorem resetBuf_canonical (hwf : Memory.wf s.buf = true) : Memory.wf (resetBuf s) = true := by
  unfold resetBuf
  split
  · exact hwf
  · cases hm : storeBlock s.buf s.dstAddr (freeBlock s.fresh 16) with
    | none => exact hwf
    | some m => exact (storeBlock_spec hwf hm).1

theorem step_keeps_canonical (hwf : Memory.wf s.buf = true) (h : step s = .next t) : Memory.wf t.buf = true := by
  obtain ⟨host, req, hc⟩ := consume_eq s
  have hwf' : Memory.wf (consume s).buf = true := by rwa [hc]
  obtain rfl | ⟨a, v, rfl⟩ | ⟨i, h⟩ | ⟨op, rfl⟩ := step_cases h
  · exact resetBuf_canonical hwf
  · exact Memory.wf_write hwf' a.isLt v
  · exact exec_keeps_canonical hwf' h
  · rwa [acceptCommand_buf]

/-! ### The latches -/

/-- While a command is under way a step that does not end it keeps DIR and the latches (R22, R23). -/
theorem step_underway_latches (hs : s.seq ≠ .done) (ht : t.seq ≠ .done) (h : step s = .next t) : sameLatches s t := by
  obtain ⟨host, req, hc⟩ := consume_eq s
  have hs' : (consume s).seq ≠ .done := by rwa [hc]
  have key : sameLatches (consume s) t := by
    obtain rfl | ⟨a, v, rfl⟩ | ⟨i, h⟩ | ⟨op, rfl⟩ := step_cases h
    · exact absurd rfl ht
    · exact ⟨rfl, rfl, rfl, rfl, rfl⟩
    · obtain hl | ⟨_, _, _, _, hdone, -⟩ := latchesAreWrittenOnlyAtAcceptance i _ t h
      · exact hl
      · exact absurd hdone hs'
    · rw [acceptCommand_underway hs']
      exact ⟨rfl, rfl, rfl, rfl, rfl⟩
  rwa [hc] at key

/-! ### The invariant -/

/-- A command under way with the latches of another and a canonical BUF meets the invariant when that other does. -/
theorem State.Inv.of_sameLatches (hinv : s.Inv) (hs : s.seq ≠ .done) (hl : sameLatches s t)
    (hwf : Memory.wf t.buf = true) : t.Inv := by
  obtain ⟨-, hslices, hstrap⟩ := hinv
  obtain ⟨hdir, hdstAddr, hdstLen, hsrcAddr, hsrcLen⟩ := hl
  refine ⟨hwf, fun _ => ?_, fun _ => ?_⟩
  · rw [hdstAddr, hdstLen, hsrcAddr, hsrcLen]
    exact hslices hs
  · rw [hdir]
    exact hstrap hs

/-- An opcode that the instance has selects a direction it has (R22, R71). -/
theorem PassesChecks.strap {cap : DirCap} {op : Byte} {dstAddr dstLen srcAddr srcLen : Addr}
    (hp : PassesChecks cap op dstAddr dstLen srcAddr srcLen) :
    (opcodeDir op = 0#1 → cap ≠ .decOnly) ∧ (opcodeDir op = 1#1 → cap ≠ .encOnly) := by
  have hres : ¬ reservedOpcode cap op = true := by simp [hp.notReserved]
  rw [reservedOpcode_iff] at hres
  obtain rfl | rfl := hp.cipher
  · exact ⟨fun _ hcap => hres (.inr (.inl ⟨rfl, hcap⟩)), fun hdir => absurd hdir (by decide)⟩
  · exact ⟨fun hdir => absurd hdir (by decide), fun _ hcap => hres (.inr (.inr ⟨rfl, hcap⟩))⟩

/-- A command that passes every check starts in a state of the invariant (R48, R71, R138). -/
theorem PassesChecks.inv_started {op : Byte} {dstAddr dstLen srcAddr srcLen : Addr}
    (hp : PassesChecks Config.dircap op dstAddr dstLen srcAddr srcLen) (hwf : Memory.wf s.buf = true) :
    ((s.latch (opcodeDir op) dstAddr dstLen srcAddr srcLen).setSeq .inputUnmask).Inv :=
  ⟨hwf, fun _ => ⟨hp.srcFits, hp.dstFits, hp.srcLong, hp.dstLong⟩, fun _ => hp.strap⟩

end

/-- Settles O55, by where the step starts and ends: in DONE only BUF counts; a step that leaves DONE started a command
that passed every check; a step within a command keeps what its start latched. -/
theorem everyStepKeepsTheInvariant : Obligations.EveryStepKeepsTheInvariant := by
  intro s t hinv h
  have hwf : Memory.wf t.buf = true := step_keeps_canonical hinv.1 h
  by_cases ht : t.seq = .done
  · exact State.inv_of_done ht hwf
  by_cases hs : s.seq = .done
  · obtain ⟨hr, hu, c, rest, hh⟩ := step_leaving_done hs h ht
    obtain ⟨hp, rfl⟩ := step_of_started_command hr hu hs hh h ht
    exact hp.inv_started hwf
  · exact hinv.of_sameLatches hs (step_underway_latches hs ht h) hwf

end Sys2Proof.Machine

namespace Sys2Proof

/-! ### CMD: a word is its five fields (R60) -/

/-- No bit of a command word lies outside the fields of R60. -/
theorem cmdWord_fields (c : BitVec 136) :
    cmdWord (cmdOpcode c) (cmdDstAddr c) (cmdDstLen c) (cmdSrcAddr c) (cmdSrcLen c) = c := by
  apply BitVec.eq_of_toNat_eq
  simp only [cmdWord, toNat_append_eq, cmdOpcode, cmdDstAddr, cmdDstLen, cmdSrcAddr, cmdSrcLen,
    BitVec.extractLsb'_toNat, Nat.shiftRight_eq_div_pow]
  omega

theorem decodeCmd_of_encode {i : Instr} {c : BitVec 136} (h : encode i = some (.cmd c)) : decodeCmd c = .ok i := by
  cases i with
  | blksz => cases h; simp [decodeCmd]
  | enc dstAddr dstLen srcAddr srcLen => cases h; simp [decodeCmd]
  | dec dstAddr dstLen srcAddr srcLen => cases h; simp [decodeCmd]
  | _ => cases h

/-- A command word that decodes is the encoding of its operation, but for the operand fields of BLKSZ (log 19). -/
theorem encode_of_decodeCmd {i : Instr} {c : BitVec 136} (h : decodeCmd c = .ok i) :
    i.wf = true ∧ (encode i = some (.cmd c) ∨ (i = .blksz ∧ cmdOpcode c = 0x01#8)) := by
  unfold decodeCmd at h
  split_ifs at h with h1 h2 h3
  · cases h
    exact ⟨rfl, .inr ⟨rfl, h1⟩⟩
  · cases h
    exact ⟨rfl, .inl (by rw [encode, ← h2, cmdWord_fields])⟩
  · cases h
    exact ⟨rfl, .inl (by rw [encode, ← h3, cmdWord_fields])⟩

/-! ### SEQ and DIR: all words, one by one (R22, R63) -/

theorem decodeSeq_of_encode {i : Instr} {q : BitVec 6} (hwf : i.wf = true) (h : encode i = some (.seq q)) :
    decodeSeq q = .ok i := by
  cases i with
  | inputUnmask => cases h; rfl
  | mainRound round =>
    cases h
    revert round
    decide
  | finalRound => cases h; rfl
  | done => cases h; rfl
  | _ => cases h

theorem encode_of_decodeSeq {i : Instr} {q : BitVec 6} (h : decodeSeq q = .ok i) :
    i.wf = true ∧ encode i = some (.seq q) := by
  have key : ∀ q : BitVec 6, ∀ i ∈ (decodeSeq q).toOption, i.wf = true ∧ encode i = some (.seq q) := by decide
  exact key q i (by rw [h]; rfl)

theorem decodeDir_of_encode {i : Instr} {d : BitVec 1} (h : encode i = some (.dir d)) : decodeDir d = .ok i := by
  cases i with
  | shiftrows => cases h; rfl
  | unshiftrows => cases h; rfl
  | _ => cases h

theorem encode_of_decodeDir {i : Instr} {d : BitVec 1} (h : decodeDir d = .ok i) :
    i.wf = true ∧ encode i = some (.dir d) := by
  have key : ∀ d : BitVec 1, ∀ i ∈ (decodeDir d).toOption, i.wf = true ∧ encode i = some (.dir d) := by decide
  exact key d i (by rw [h]; rfl)

/-! ### TADDR: an address of each of the four layouts is its fields (R64, R65) -/

section
variable {a : BitVec 24} {space : BitVec 3}

theorem taddr_block_of_fields (hs : taddrSpace a = space) (h0 : a.extractLsb' 12 9 = 0#9) :
    space ++ 0#9 ++ a.extractLsb' 8 4 ++ taddrIdx a = a := by
  apply BitVec.eq_of_toNat_eq
  rw [← hs, ← h0]
  simp only [toNat_append_eq, taddrSpace, taddrIdx, BitVec.extractLsb'_toNat, Nat.shiftRight_eq_div_pow]
  omega

theorem taddr_round_of_fields (hs : taddrSpace a = space) (h0 : a.extractLsb' 16 5 = 0#5) :
    space ++ 0#5 ++ a.extractLsb' 12 4 ++ a.extractLsb' 8 4 ++ taddrIdx a = a := by
  apply BitVec.eq_of_toNat_eq
  rw [← hs, ← h0]
  simp only [toNat_append_eq, taddrSpace, taddrIdx, BitVec.extractLsb'_toNat, Nat.shiftRight_eq_div_pow]
  omega

theorem taddr_blockChain_of_fields (hs : taddrSpace a = space) (h0 : a.extractLsb' 17 4 = 0#4) :
    space ++ 0#4 ++ a.extractLsb' 12 5 ++ a.extractLsb' 8 4 ++ taddrIdx a = a := by
  apply BitVec.eq_of_toNat_eq
  rw [← hs, ← h0]
  simp only [toNat_append_eq, taddrSpace, taddrIdx, BitVec.extractLsb'_toNat, Nat.shiftRight_eq_div_pow]
  omega

theorem taddr_wordChain_of_fields (hs : taddrSpace a = space) (h0 : a.extractLsb' 19 2 = 0#2) :
    space ++ 0#2 ++ a.extractLsb' 15 4 ++ a.extractLsb' 10 5 ++ a.extractLsb' 8 2 ++ taddrIdx a = a := by
  apply BitVec.eq_of_toNat_eq
  rw [← hs, ← h0]
  simp only [toNat_append_eq, taddrSpace, taddrIdx, BitVec.extractLsb'_toNat, Nat.shiftRight_eq_div_pow]
  omega

end

theorem taddrFields_of_encode {i : Instr} {a : BitVec 24} (h : encode i = some (.taddr a)) :
    taddrFields a = some i := by
  cases i with
  | get16IM pos idx | get16OM pos idx =>
    cases h
    simp only [taddrFields, taddr_block_fields]
    rfl
  | get4TY round pos idx | get4MB round pos idx =>
    cases h
    simp only [taddrFields, taddr_round_fields]
    rfl
  | get1IX npos step idx | get1OX npos step idx =>
    cases h
    simp only [taddrFields, taddr_blockChain_fields]
    rfl
  | get1HX round npos step idx | get1LX round npos step idx =>
    cases h
    simp only [taddrFields, taddr_wordChain_fields]
    rfl
  | _ => cases h

theorem encode_of_taddrFields {i : Instr} {a : BitVec 24} (h : taddrFields a = some i) :
    encode i = some (.taddr a) := by
  unfold taddrFields at h
  split_ifs at h with h0 hz h1 hz h2 hz h3 hz h4 hz h5 hz h6 hz hz <;> cases h
  · rw [encode, taddr_block_of_fields h0 hz]
  · rw [encode, taddr_blockChain_of_fields h1 hz]
  · rw [encode, taddr_round_of_fields h2 hz]
  · rw [encode, taddr_wordChain_of_fields h3 hz]
  · rw [encode, taddr_round_of_fields h4 hz]
  · rw [encode, taddr_wordChain_of_fields h5 hz]
  · rw [encode, taddr_block_of_fields h6 hz]
  · have h7 : taddrSpace a = 7#3 := by bv_omega
    rw [encode, taddr_blockChain_of_fields h7 hz]

/-- The lookup a table address asks for is the one it is the word of. -/
theorem taddrFields_eq_some {a : BitVec 24} {i : Instr} : taddrFields a = some i ↔ encode i = some (.taddr a) :=
  ⟨encode_of_taddrFields, taddrFields_of_encode⟩

/-- A table address decodes to the well-formed lookup it is the word of, and to nothing else (R65, R70). -/
theorem decodeTaddr_eq_ok {a : BitVec 24} {i : Instr} :
    decodeTaddr a = .ok i ↔ i.wf = true ∧ encode i = some (.taddr a) := by
  rw [← taddrFields_eq_some, decodeTaddr]
  cases taddrFields a with
  | none => simp
  | some j =>
    cases hj : j.wf with
    | true => simpa [hj] using fun h => h ▸ hj
    | false => simpa [hj] using fun hi h => by simp [h, hi] at hj

/-! ### The two directions of the round trip -/

/-- Settles O3, by the format of the word: in CMD and TADDR the fields of a composed word are read back, SEQ and DIR
are finite. -/
theorem decodeOfEncodeIsTheOperation : Obligations.DecodeOfEncodeIsTheOperation := by
  intro i c hwf h
  cases c with
  | cmd c => exact decodeCmd_of_encode h
  | seq q => exact decodeSeq_of_encode hwf h
  | dir d => exact decodeDir_of_encode h
  | taddr a => exact decodeTaddr_eq_ok.mpr ⟨hwf, h⟩

/-- Settles O4, by the format of the word: a CMD or TADDR word is its fields put together, SEQ and DIR are finite; a
BLKSZ word is fixed by its opcode alone. -/
theorem encodeOfDecodeIsTheWord : Obligations.EncodeOfDecodeIsTheWord := by
  intro c i h
  cases c with
  | cmd c =>
    obtain ⟨hwf, henc | ⟨hi, hop⟩⟩ := encode_of_decodeCmd h
    · exact ⟨hwf, .inl henc⟩
    · exact ⟨hwf, .inr ⟨hi, c, rfl, by rw [← Machine.cmdOpcode_toNat, hop]; rfl⟩⟩
  | seq q => exact (encode_of_decodeSeq h).imp_right .inl
  | dir d => exact (encode_of_decodeDir h).imp_right .inl
  | taddr a => exact (decodeTaddr_eq_ok.mp h).imp_right .inl

/-! ### The opcode map over plain numbers (R60, R61) -/

/-- The opcode tests of the decoder, over plain numbers. -/
theorem ofNat_eq_opcode (n : Nat) (op : Byte) : BitVec.ofNat 8 n = op ↔ n % 256 = op.toNat := by
  rw [BitVec.toNat_eq, BitVec.toNat_ofNat]

/-- Settles O2: the decoder's fields and tests are those numbers. -/
theorem commandWordsDecodeByTheOpcodeMap : Obligations.CommandWordsDecodeByTheOpcodeMap := by
  refine ⟨fun c => ?_, rfl, rfl⟩
  simp only [decode, decodeCmd, cmdOpcode_eq_ofNat, ofNat_eq_opcode, cmdDstAddr, cmdDstLen, cmdSrcAddr, cmdSrcLen,
    cmdField_eq_ofNat, BitVec.toNat_ofNat, Nat.reducePow, Nat.reduceMod]

/-! ### The table addresses of R65's ranges -/

/-- `SPACE` and `SEL` name a table, by the ranges of R65. -/
def namesTable (space sel : Nat) : Prop :=
  (space = 0 ∧ sel < 16) ∨ (space = 6 ∧ sel < 16) ∨
  (space = 2 ∧ sel < 9 * 16) ∨ (space = 4 ∧ sel < 9 * 16) ∨
  (space = 1 ∧ sel < 32 * 16 ∧ sel % 16 < 15) ∨ (space = 7 ∧ sel < 32 * 16 ∧ sel % 16 < 15) ∨
  (space = 3 ∧ sel < 9 * 128 ∧ sel % 4 < 3) ∨ (space = 5 ∧ sel < 9 * 128 ∧ sel % 4 < 3)

/-- `SEL` of a table address, bits 20 to 8 (R64), as a number. -/
def taddrSel (a : BitVec 24) : Nat := a.toNat / 2 ^ 8 % 2 ^ 13

section
variable {a : BitVec 24}

theorem taddrSpace_toNat : (taddrSpace a).toNat = a.toNat / 2 ^ 21 := by
  rw [taddrSpace, BitVec.extractLsb'_toNat, Nat.shiftRight_eq_div_pow]
  omega

theorem block_sel_iff : a.extractLsb' 12 9 = 0#9 ↔ taddrSel a < 16 := by
  simp only [taddrSel, BitVec.toNat_eq, BitVec.extractLsb'_toNat, BitVec.toNat_ofNat, Nat.shiftRight_eq_div_pow]
  omega

theorem round_sel_iff : (a.extractLsb' 16 5 = 0#5 ∧ roundOk (a.extractLsb' 12 4) = true) ↔ taddrSel a < 9 * 16 := by
  simp only [taddrSel, roundOk, decide_eq_true_eq, BitVec.toNat_eq, BitVec.extractLsb'_toNat, BitVec.toNat_ofNat,
    Nat.shiftRight_eq_div_pow]
  omega

theorem blockChain_sel_iff :
    (a.extractLsb' 17 4 = 0#4 ∧ blockStepOk (a.extractLsb' 8 4) = true) ↔
      taddrSel a < 32 * 16 ∧ taddrSel a % 16 < 15 := by
  simp only [taddrSel, blockStepOk, decide_eq_true_eq, BitVec.toNat_eq, BitVec.extractLsb'_toNat, BitVec.toNat_ofNat,
    Nat.shiftRight_eq_div_pow]
  omega

theorem wordChain_sel_iff :
    (a.extractLsb' 19 2 = 0#2 ∧ roundOk (a.extractLsb' 15 4) = true ∧ wordStepOk (a.extractLsb' 8 2) = true) ↔
      taddrSel a < 9 * 128 ∧ taddrSel a % 4 < 3 := by
  simp only [taddrSel, roundOk, wordStepOk, decide_eq_true_eq, BitVec.toNat_eq, BitVec.extractLsb'_toNat,
    BitVec.toNat_ofNat, Nat.shiftRight_eq_div_pow]
  omega

/-- Where a space has one layout, an address decodes when no bit outside it is set and the operation is well-formed. -/
theorem decodeTaddr_of_layout {p : Prop} [Decidable p] {i : Instr}
    (h : taddrFields a = if p then some i else none) : (∃ j, decodeTaddr a = .ok j) ↔ p ∧ i.wf = true := by
  rw [decodeTaddr, h]
  by_cases hp : p <;> cases hi : i.wf <;> simp [hp, hi]

/-- A table address decodes exactly in the ranges of R65, space by space in the order of `namesTable`. -/
theorem exists_decodeTaddr_iff : (∃ i, decodeTaddr a = .ok i) ↔ namesTable (a.toNat / 2 ^ 21) (taddrSel a) := by
  have hspace : ∀ d : BitVec 3, d = 0 ∨ d = 6 ∨ d = 2 ∨ d = 4 ∨ d = 1 ∨ d = 7 ∨ d = 3 ∨ d = 5 := by decide
  rw [← taddrSpace_toNat]
  obtain h | h | h | h | h | h | h | h := hspace (taddrSpace a)
  all_goals rw [decodeTaddr_of_layout (by simp only [taddrFields, h]; rfl)]
  · simpa [namesTable, h, Instr.wf] using block_sel_iff
  · simpa [namesTable, h, Instr.wf] using block_sel_iff
  · simpa [namesTable, h, Instr.wf] using round_sel_iff
  · simpa [namesTable, h, Instr.wf] using round_sel_iff
  · simpa [namesTable, h, Instr.wf, NibSel.wf] using blockChain_sel_iff
  · simpa [namesTable, h, Instr.wf, NibSel.wf] using blockChain_sel_iff
  · simpa [namesTable, h, Instr.wf, NibSel.wf] using wordChain_sel_iff
  · simpa [namesTable, h, Instr.wf, NibSel.wf] using wordChain_sel_iff

theorem decodeTaddr_ok_or_noTable (a : BitVec 24) :
    (∃ i, decodeTaddr a = .ok i) ∨ decodeTaddr a = .error (.noTable a) := by
  unfold decodeTaddr
  split
  · split
    · exact .inl ⟨_, rfl⟩
    · exact .inr rfl
  · exact .inr rfl

end

/-- Settles O5: the ranges of R65 are those in which an address decodes, and an address decodes or is refused. -/
theorem tableAddressesOfNoTableAreRefused : Obligations.TableAddressesOfNoTableAreRefused :=
  fun a => ⟨exists_decodeTaddr_iff.mpr, fun h =>
    (decodeTaddr_ok_or_noTable a).resolve_left fun hok => h (exists_decodeTaddr_iff.mp hok)⟩

/-! ### SEQ: the twelve words (R63) -/

@[simp] theorem seqOfWord_seqWord (q : Seq) : seqOfWord (seqWord q) = some q := by
  cases q with
  | mainRound r => revert r; decide
  | inputUnmask => rfl
  | finalRound => rfl
  | done => rfl

/-- `seqOfWord` names the state a value is the word of, and no other. -/
theorem seqOfWord_eq_some {w : BitVec 6} {q : Seq} : seqOfWord w = some q ↔ seqWord q = w := by
  constructor
  · intro h
    have key : ∀ w : BitVec 6, ∀ q ∈ seqOfWord w, seqWord q = w := by decide
    exact key w q h
  · rintro rfl
    exact seqOfWord_seqWord q

theorem exists_seqWord_iff (w : BitVec 6) :
    (∃ q, seqWord q = w) ↔
      w ∈ [0x00#6, 0x10#6, 0x11#6, 0x12#6, 0x13#6, 0x14#6, 0x15#6, 0x16#6, 0x17#6, 0x18#6, 0x20#6, 0x30#6] := by
  simp only [← seqOfWord_eq_some, ← Option.isSome_iff_exists]
  revert w
  decide

theorem seqWord_mainRound (r : Fin 9) : seqWord (.mainRound r) = 0x10#6 + BitVec.ofNat 6 r.val := by
  revert r
  decide

/-- A SEQ value is its PHASE and ROUND fields (R63). -/
theorem seq_fields_toNat (w : BitVec 6) : w.toNat = 16 * (seqPhase w).toNat + (seqRound w).toNat := by
  simp only [seqPhase, seqRound, BitVec.extractLsb'_toNat, Nat.shiftRight_eq_div_pow]
  omega

/-- Settles O1: the words select what `decode_seqWord` says. -/
theorem sequencerWordsAreTheTwelve : Obligations.SequencerWordsAreTheTwelve := by
  refine ⟨seqOfWord_seqWord, exists_seqWord_iff, rfl, seqWord_mainRound, rfl, rfl, fun q => seq_fields_toNat _,
    Machine.decode_seqWord .inputUnmask, fun r => ?_, Machine.decode_seqWord .finalRound,
    Machine.decode_seqWord .done, rfl⟩
  rw [← seqWord_mainRound]
  exact Machine.decode_seqWord (.mainRound r)

/-! ### Table entries (R66) -/

/-- The bytes `f 0`, ..., `f n` as one word, `f j` in bits `8j+7` to `8j`: the shape of R66's entries. -/
def packBytes (f : Nat → Byte) : (n : Nat) → BitVec (8 * (n + 1))
  | 0 => f 0
  | n + 1 => packBytes (fun j => f (j + 1)) n ++ f 0

theorem extractLsb'_packBytes (n : Nat) (f : Nat → Byte) (j : Nat) (hj : j ≤ n) :
    (packBytes f n).extractLsb' (8 * j) 8 = f j := by
  induction n generalizing f j with
  | zero =>
    obtain rfl : j = 0 := by omega
    exact BitVec.extractLsb'_eq_self
  | succ n ih =>
    cases j with
    | zero => exact (extractLsb'_append_low _ _ _ _ (by omega)).trans BitVec.extractLsb'_eq_self
    | succ j => exact (extractLsb'_append_high _ _ _ _ (by omega)).trans (ih _ j (by omega))

/-- Settles O7: both entries are packed bytes. -/
theorem tableEntriesHoldElementZeroLowest : Obligations.TableEntriesHoldElementZeroLowest := by
  refine ⟨fun v j => ?_, fun v j => ?_⟩
  · have hpack : blockEntry v = packBytes (fun k => v[k]!) 15 := rfl
    rw [hpack, extractLsb'_packBytes 15 _ j (by omega)]
    exact getElem!_pos v j.val j.isLt
  · have hpack : wordEntry v = packBytes (fun k => v[k]!) 3 := rfl
    rw [hpack, extractLsb'_packBytes 3 _ j (by omega)]
    exact getElem!_pos v j.val j.isLt

/-! ### RESP (R62) -/

theorem respWord_toNat (r : Resp) : (respWord r).toNat = 256 * r.value.toNat + (respCode r.code).toNat := by
  rw [respWord, toNat_append_eq]
  omega

theorem respWord_illegalCommand (op : Byte) :
    respWord (Machine.faultResp (.illegalCommand op)) = (op.setWidth 16 <<< 8) ||| 0x0001#16 := by
  revert op
  decide +kernel

/-- Settles O8: RESP is its two fields, whatever they hold; the fixed words are those of the outcomes' constants. -/
theorem responseWordsOfTheOutcomes : Obligations.ResponseWordsOfTheOutcomes :=
  ⟨respWord_toNat, respWord_illegalCommand, rfl, rfl, rfl, rfl, rfl⟩

/-- Settles O9, by decoding each word. -/
theorem wordsOfTheSpecDecode : Obligations.WordsOfTheSpecDecode :=
  ⟨rfl, rfl, rfl, rfl, rfl, rfl, rfl, rfl, rfl, rfl⟩

end Sys2Proof

namespace Sys2Proof.Machine

/-! ### What a table address reads (R64, R65) -/

/-- A table address runs the well-formed lookup it is the word of. -/
theorem runWord_taddr {i : Instr} {a : BitVec 24} (hwf : i.wf = true) (h : encode i = some (.taddr a)) (s : State) :
    runWord (.taddr a) s = exec i s := by
  rw [runWord, decode, decodeTaddr_eq_ok.mpr ⟨hwf, h⟩]

@[simp] theorem roundOk_ofNat (r : Fin 9) : roundOk (BitVec.ofNat 4 r.val) = true := by
  rw [← roundOf_isSome, roundOf_ofNat, Option.isSome_some]

@[simp] theorem blockStepOf_ofNat (st : Fin 15) : blockStepOf (BitVec.ofNat 4 st.val) = some st := by
  revert st
  decide

@[simp] theorem wordStepOf_ofNat (st : Fin 3) : wordStepOf (BitVec.ofNat 2 st.val) = some st := by
  revert st
  decide

/-- `NPOS = 2*b + h` of a Block (R65). -/
def blockNpos (b : Fin 16) (h : Fin 2) : BitVec 5 := BitVec.ofNat 5 (2 * b.val + h.val)

/-- `NPOS = 8*c + 2*b + h` of a column (R65). -/
def columnNpos (c b : Fin 4) (h : Fin 2) : BitVec 5 := BitVec.ofNat 5 (8 * c.val + 2 * b.val + h.val)

theorem toNat_ofNat_fin {n : Nat} (w : Nat) (k : Fin n) (hn : n ≤ 2 ^ w) : (BitVec.ofNat w k.val).toNat = k.val := by
  rw [BitVec.toNat_ofNat, Nat.mod_eq_of_lt (k.isLt.trans_le hn)]

theorem blockNpos_toNat (b : Fin 16) (h : Fin 2) : (blockNpos b h).toNat = 2 * b.val + h.val := by
  rw [blockNpos, BitVec.toNat_ofNat]
  omega

theorem columnNpos_toNat (c b : Fin 4) (h : Fin 2) : (columnNpos c b h).toNat = 8 * c.val + 2 * b.val + h.val := by
  rw [columnNpos, BitVec.toNat_ofNat]
  omega

theorem blockNpos_fields (b : Fin 16) (h : Fin 2) : nposByte (blockNpos b h) = b ∧ nposHalf (blockNpos b h) = h := by
  revert b h
  decide

theorem columnNpos_fields (c b : Fin 4) (h : Fin 2) :
    nposCol (columnNpos c b h) = c ∧ nposRow (columnNpos c b h) = b ∧ nposHalf (columnNpos c b h) = h := by
  revert c b h
  decide

section
variable (T : TableStore) (r : Fin 9) (st : Fin 15) (wst : Fin 3) (b : Fin 16) (c row : Fin 4) (h : Fin 2)

@[simp] theorem nibTable_ix : nibTable T (.ix (blockNpos b h) (BitVec.ofNat 4 st.val)) = some (T.ix st b h) := by
  simp [nibTable, blockNpos_fields]

@[simp] theorem nibTable_ox : nibTable T (.ox (blockNpos b h) (BitVec.ofNat 4 st.val)) = some (T.ox st b h) := by
  simp [nibTable, blockNpos_fields]

@[simp] theorem nibTable_hx :
    nibTable T (.hx (BitVec.ofNat 4 r.val) (columnNpos c row h) (BitVec.ofNat 2 wst.val)) =
      some (T.hx r c wst row h) := by
  simp [nibTable, columnNpos_fields]

@[simp] theorem nibTable_lx :
    nibTable T (.lx (BitVec.ofNat 4 r.val) (columnNpos c row h) (BitVec.ofNat 2 wst.val)) =
      some (T.lx r c wst row h) := by
  simp [nibTable, columnNpos_fields]

end

/-- A selector that names a table is well-formed, and GET1 answers the table's entry (R82). -/
theorem get1_of_nibTable {sel : NibSel} {t : Byte → Nibble} (h : nibTable Config.tables sel = some t) (x : Byte)
    (s : State) : sel.wf = true ∧ get1 Config.tables sel x s = .next (s.setOut (.nibble (t x))) := by
  rw [← nibTable_isSome Config.tables, get1, h]
  exact ⟨rfl, rfl⟩

theorem get4_ofNat (t : Fin 9 → Fin 16 → Byte → Word) (r : Fin 9) (pos : BitVec 4) (x : Byte) (s : State) :
    get4 t (BitVec.ofNat 4 r.val) pos x s = .next (s.setOut (.word (t r pos.toFin x))) := by
  rw [get4, roundOf_ofNat]

/-- A number that is the word of a well-formed lookup runs it. -/
theorem runWord_taddr_ofNat {i : Instr} {a : BitVec 24} {n : Nat} (hwf : i.wf = true) (h : encode i = some (.taddr a))
    (hn : a.toNat = n) (s : State) : runWord (.taddr (BitVec.ofNat 24 n)) s = exec i s := by
  rw [← hn, BitVec.ofNat_toNat, BitVec.setWidth_eq, runWord_taddr hwf h]

/-- Settles O6, layout by layout: the number is the word of the lookup, whose operands name the table. -/
theorem tableAddressesReadTheirTables : Obligations.TableAddressesReadTheirTables := by
  intro s x
  refine ⟨fun pos => ?_, fun r pos => ?_, fun st b h => ?_, fun r c st b h => ?_⟩
  · have hword (space : BitVec 3) := taddr_block_toNat space (BitVec.ofFin (w := 4) pos) x
    exact ⟨runWord_taddr_ofNat (i := .get16IM ..) rfl rfl (hword 0#3) s,
      runWord_taddr_ofNat (i := .get16OM ..) rfl rfl (hword 6#3) s⟩
  · have hword (space : BitVec 3) := taddr_round_toNat space (BitVec.ofNat 4 r.val) (BitVec.ofFin (w := 4) pos) x
    rw [toNat_ofNat_fin 4 r (by decide)] at hword
    have hwf := roundOk_ofNat r
    exact ⟨(runWord_taddr_ofNat (i := .get4TY ..) hwf rfl (hword 2#3) s).trans (get4_ofNat ..),
      (runWord_taddr_ofNat (i := .get4MB ..) hwf rfl (hword 4#3) s).trans (get4_ofNat ..)⟩
  · have hword (space : BitVec 3) := taddr_blockChain_toNat space (BitVec.ofNat 4 st.val) (blockNpos b h) x
    rw [toNat_ofNat_fin 4 st (by decide), blockNpos_toNat] at hword
    obtain ⟨hwf, hix⟩ := get1_of_nibTable (nibTable_ix Config.tables st b h) x s
    obtain ⟨hwf', hox⟩ := get1_of_nibTable (nibTable_ox Config.tables st b h) x s
    exact ⟨(runWord_taddr_ofNat (i := .get1IX ..) hwf rfl (hword 1#3) s).trans hix,
      (runWord_taddr_ofNat (i := .get1OX ..) hwf' rfl (hword 7#3) s).trans hox⟩
  · have hword (space : BitVec 3) :=
      taddr_wordChain_toNat space (BitVec.ofNat 4 r.val) (columnNpos c b h) (BitVec.ofNat 2 st.val) x
    rw [toNat_ofNat_fin 4 r (by decide), toNat_ofNat_fin 2 st (by decide), columnNpos_toNat] at hword
    obtain ⟨hwf, hhx⟩ := get1_of_nibTable (nibTable_hx Config.tables r st c b h) x s
    obtain ⟨hwf', hlx⟩ := get1_of_nibTable (nibTable_lx Config.tables r st c b h) x s
    exact ⟨(runWord_taddr_ofNat (i := .get1HX ..) hwf rfl (hword 3#3) s).trans hhx,
      (runWord_taddr_ofNat (i := .get1LX ..) hwf' rfl (hword 5#3) s).trans hlx⟩

/-! ### Where an operation stops (R48, R70) -/

/-- The outcome completes when `ok` holds and is a refusal by name when it does not (R70). -/
def CompletesIff (ok : Bool) (o : Result) : Prop :=
  (ok = true ∧ ∃ t, o = .next t) ∨ (ok = false ∧ (o = .refused .noTable ∨ o = .refused .noRound))

theorem CompletesIff.of_next {t : State} : CompletesIff true (.next t) := .inl ⟨rfl, t, rfl⟩

/-- An operation that first looks a name up completes where the name exists. -/
theorem CompletesIff.of_lookup {α : Type} {x : Option α} {ok : Bool} {o : Result} (hx : x.isSome = ok)
    (hsome : ∀ v, x = some v → ∃ t, o = .next t)
    (hnone : x = none → o = .refused .noTable ∨ o = .refused .noRound) : CompletesIff ok o := by
  subst hx
  cases x with
  | some v => exact .inl ⟨rfl, hsome v rfl⟩
  | none => exact .inr ⟨rfl, hnone rfl⟩

theorem get1_completesIff (sel : NibSel) (idx : Byte) (s : State) :
    CompletesIff sel.wf (get1 Config.tables sel idx s) :=
  .of_lookup (nibTable_isSome Config.tables sel) (fun t h => ⟨_, by rw [get1, h]⟩) (fun h => .inl (by rw [get1, h]))

theorem get4_completesIff (t : Fin 9 → Fin 16 → Byte → Word) (round pos : BitVec 4) (idx : Byte) (s : State) :
    CompletesIff (roundOk round) (get4 t round pos idx s) :=
  .of_lookup (roundOf_isSome round) (fun r h => ⟨_, by rw [get4, h]⟩) (fun h => .inl (by rw [get4, h]))

theorem execFoldstep_completesIff (th tl : NibSel) (acc nxt : Byte) (s : State) :
    CompletesIff (th.wf && tl.wf) (execFoldstep th tl acc nxt s) := by
  rw [← nibTable_isSome Config.tables th, ← nibTable_isSome Config.tables tl, execFoldstep]
  cases nibTable Config.tables th with
  | none => exact .inr ⟨rfl, .inl rfl⟩
  | some h =>
    cases nibTable Config.tables tl with
    | none => exact .inr ⟨rfl, .inl rfl⟩
    | some l => exact .of_next

/-- All operations but the two that access BUF complete exactly when they are well-formed. -/
theorem exec_completesIff {i : Instr} (hi : i ≠ .inputUnmask) (hf : i ≠ .finalRound) (s : State) :
    CompletesIff i.wf (exec i s) := by
  cases i with
  | inputUnmask => exact absurd rfl hi
  | finalRound => exact absurd rfl hf
  | mainRound round =>
    exact .of_lookup (roundOf_isSome round) (fun r h => ⟨_, by rw [exec, execMainRound, h]⟩)
      (fun h => .inr (by rw [exec, execMainRound, h]))
  | column round col =>
    exact .of_lookup (roundOf_isSome round) (fun r h => ⟨_, by rw [exec, execColumn, h]⟩)
      (fun h => .inr (by rw [exec, execColumn, h]))
  | expandw path round col =>
    exact .of_lookup (roundOf_isSome round) (fun r h => ⟨_, by rw [exec, execExpandw, h]⟩)
      (fun h => .inr (by rw [exec, execExpandw, h]))
  | foldw path round col =>
    exact .of_lookup (roundOf_isSome round) (fun r h => ⟨_, by rw [exec, execFoldw, h]⟩)
      (fun h => .inr (by rw [exec, execFoldw, h]))
  | get4TY round pos idx => exact get4_completesIff ..
  | get4MB round pos idx => exact get4_completesIff ..
  | get1IX npos step idx => exact get1_completesIff (.ix npos step) idx s
  | get1HX round npos step idx => exact get1_completesIff (.hx round npos step) idx s
  | get1LX round npos step idx => exact get1_completesIff (.lx round npos step) idx s
  | get1OX npos step idx => exact get1_completesIff (.ox npos step) idx s
  | foldstep th tl acc nxt => exact execFoldstep_completesIff ..
  | _ => exact .of_next

/-- The outcome of an access to the 16 addresses from `base`: it completes where they exist, else it faults (R48). -/
def FaultsPast (base : Addr) (o : Result) : Prop :=
  (base.toNat + 16 ≤ 2 ^ 32 ∧ ∃ t, o = .next t) ∨ (2 ^ 32 < base.toNat + 16 ∧ o = .fault (.bufAddress base))

theorem FaultsPast.not_refused {base : Addr} {o : Result} (h : FaultsPast base o) (r : Refusal) : o ≠ .refused r := by
  obtain ⟨-, t, rfl⟩ | ⟨-, rfl⟩ := h <;> simp

theorem FaultsPast.eq_fault_iff {base : Addr} {o : Result} (h : FaultsPast base o) (f : Fault) :
    o = .fault f ↔ 2 ^ 32 < base.toNat + 16 ∧ f = .bufAddress base := by
  obtain ⟨hfit, t, rfl⟩ | ⟨hpast, rfl⟩ := h
  · exact ⟨nofun, fun h => absurd h.1 (by omega)⟩
  · exact ⟨fun h => ⟨hpast, by cases h; rfl⟩, fun h => by rw [h.2]⟩

theorem inputUnmask_faultsPast (T : TableStore) (s : State) : FaultsPast s.srcAddr (inputUnmask T s) := by
  rw [inputUnmask_eq]
  split
  · next hfit => exact .inl ⟨hfit, _, rfl⟩
  · next hpast => exact .inr ⟨by omega, rfl⟩

theorem finalRound_faultsPast (T : TableStore) (s : State) : FaultsPast s.dstAddr (finalRound T s) := by
  by_cases hfit : s.dstAddr.toNat + 16 ≤ 2 ^ 32
  · obtain ⟨m, hm⟩ := storeBlock_fits hfit s.buf (foldB T.ox (expandB T.om (permute s.dir s.w)))
    exact .inl ⟨hfit, _, finalRound_next T s hm⟩
  · exact .inr ⟨by omega, finalRound_fault T s hfit⟩

/-- Settles O25: INPUT_UNMASK and FINAL_ROUND can only fault, every other operation can only be refused. -/
theorem operationsStopOnlyWhereNamed : Obligations.OperationsStopOnlyWhereNamed := by
  intro i s
  by_cases hi : i = .inputUnmask
  · subst hi
    have h : FaultsPast s.srcAddr (exec .inputUnmask s) := inputUnmask_faultsPast Config.tables s
    exact ⟨nofun, fun _ => h.not_refused, fun f => by simp [h.eq_fault_iff]⟩
  by_cases hf : i = .finalRound
  · subst hf
    have h : FaultsPast s.dstAddr (exec .finalRound s) := finalRound_faultsPast Config.tables s
    exact ⟨nofun, fun _ => h.not_refused, fun f => by simp [h.eq_fault_iff]⟩
  obtain ⟨hwf, t, h⟩ | ⟨hwf, h⟩ := exec_completesIff hi hf s
  · simp [hwf, h, hi, hf]
  · exact ⟨fun _ => h, by simp [hwf], fun f => by obtain h | h := h <;> simp [h, hi, hf]⟩

/-! ### Responses (R62, R138) -/

section
variable {s t : State}

/-- While a command is under way only FINAL_ROUND responds, once (R123). -/
theorem step_underway_resp (hr : s.noReset = true) (hu : s.unitReq = none) (hs : s.seq ≠ .done)
    (h : step s = .next t) : t.resp = if s.seq = .finalRound then s.resp ++ [⟨.ok, 0⟩] else s.resp := by
  rw [step_of_underway hr hu hs] at h
  cases hq : s.seq with
  | inputUnmask =>
    rw [hq] at h
    obtain ⟨-, w, pb, rfl⟩ := inputUnmask_next_inv h
    rfl
  | mainRound r =>
    rw [hq] at h
    cases h
    rw [mainRound_eq]
    rfl
  | finalRound =>
    rw [hq] at h
    obtain ⟨w, pb, m, -, rfl⟩ := finalRound_next_inv h
    rfl
  | done => exact absurd hq hs

/-- A command taken in DONE is answered once and SEQ stays, or it starts and nothing is answered yet (R138). -/
theorem step_command_resp {c : BitVec 136} {rest : List HostMove} (hr : s.noReset = true) (hu : s.unitReq = none)
    (hs : s.seq = .done) (hh : s.host = .command c :: rest) (h : step s = .next t) :
    (t.seq = .done ∧ ∃ r, t.resp = s.resp ++ [r]) ∨ (t.seq ≠ .done ∧ t.resp = s.resp) := by
  rw [step_of_command hr hu hs hh,
    runWord_command (s := { s with resetLine := s.resetLine.tail, host := rest }) c hs] at h
  cases h
  obtain ⟨hn, -⟩ | ⟨-, r, ha⟩ | ⟨-, -, ha⟩ := acceptCommand_cases Config.dircap (cmdOpcode c) (cmdDstAddr c)
    (cmdDstLen c) (cmdSrcAddr c) (cmdSrcLen c) { s with resetLine := s.resetLine.tail, host := rest }
  · exact absurd hs hn
  · exact .inl ⟨by simpa [ha] using hs, r, by simp [ha]⟩
  · exact .inr (by simp [ha])

/-- Without a command of the host a step in DONE responds nothing (R124). -/
theorem step_done_resp (hr : s.noReset = true) (hu : s.unitReq = none) (hs : s.seq = .done)
    (hh : ∀ c rest, s.host ≠ .command c :: rest) (h : step s = .next t) : t.resp = s.resp := by
  match hm : s.host with
  | [] =>
    rw [step_of_idle hr hu hs hm] at h
    cases h
    rfl
  | .command c :: rest => exact absurd hm (hh c rest)
  | .store a v :: rest =>
    rw [step_of_store hr hu hs hm] at h
    cases h
    rfl

end

/-- Settles O50, by where the step starts: within a command, or in DONE with or without a command from the host. -/
theorem oneResponsePerCommand : Obligations.OneResponsePerCommand := by
  intro s t hr hu h
  by_cases hs : s.seq = .done
  · by_cases hh : ∃ c rest, s.host = .command c :: rest
    · obtain ⟨c, rest, hh⟩ := hh
      obtain ⟨ht, hresp⟩ | ⟨ht, hresp⟩ := step_command_resp hr hu hs hh h <;> simp [hs, hh, ht, hresp]
    · have hresp := step_done_resp hr hu hs (fun c rest e => hh ⟨c, rest, e⟩) h
      simp [hs, hh, hresp]
  · have hresp := step_underway_resp hr hu hs h
    by_cases hf : s.seq = .finalRound <;> simp [hs, hf, hresp]

end Sys2Proof.Machine

namespace Sys2Proof.Machine

/-! ### What a lookup answers (R80 to R83) -/

theorem toFin_ofNat_pos (p : Fin 16) : (BitVec.ofNat 4 p.val).toFin = p :=
  Fin.ofNat_val_eq_self (n := 16) p

/-- Settles O24: the operands of R65 name the table, and GET1 answers the entry of the table they name. -/
theorem getOneAnswersTheEntry : Obligations.GetOneAnswersTheEntry := by
  intro s h x
  have answers {sel : NibSel} {t : Byte → Nibble} (ht : nibTable Config.tables sel = some t) :
      get1 Config.tables sel x s = .next (s.setOut (.nibble (t x))) := (get1_of_nibTable ht x s).2
  exact ⟨fun st b => ⟨answers (nibTable_ix _ st b h), answers (nibTable_ox _ st b h)⟩,
    fun r c st b => ⟨answers (nibTable_hx _ r st c b h), answers (nibTable_lx _ r st c b h)⟩⟩

theorem get16_ofNat (t : Fin 16 → Byte → Block) (p : Fin 16) (x : Byte) (s : State) :
    get16 (t (BitVec.ofNat 4 p.val).toFin) x s = s.setOut (.block (t p x)) := by
  rw [toFin_ofNat_pos, get16]

/-- Settles O22: the position field names the table, whose entry GET16 answers. -/
theorem getSixteenAnswersTheEntry : Obligations.GetSixteenAnswersTheEntry := fun s p x =>
  ⟨congrArg Host.Outcome.next (get16_ofNat Config.tables.im p x s),
    congrArg Host.Outcome.next (get16_ofNat Config.tables.om p x s)⟩

theorem get4_ofNat_ofNat (t : Fin 9 → Fin 16 → Byte → Word) (r : Fin 9) (p : Fin 16) (x : Byte) (s : State) :
    get4 t (BitVec.ofNat 4 r.val) (BitVec.ofNat 4 p.val) x s = .next (s.setOut (.word (t r p x))) := by
  rw [get4_ofNat, toFin_ofNat_pos]

/-- Settles O23: the round and position fields name the table, whose entry GET4 answers. -/
theorem getFourAnswersTheEntry : Obligations.GetFourAnswersTheEntry := fun s r p x =>
  ⟨get4_ofNat_ofNat Config.tables.ty r p x s, get4_ofNat_ofNat Config.tables.mb r p x s⟩

end Sys2Proof.Machine

namespace Sys2Proof.Machine

/-! ### The block permutation on its own (R90 to R93) -/

section
variable (b : Block) (r c : Fin 4)

/-- R90 by rows and columns. -/
theorem shiftRows_row_col : (shiftRows b)[r.val + 4 * c.val] = b[r.val + 4 * ((c.val + r.val) % 4)] := by
  have hr : (r.val + 4 * c.val) % 4 = r.val := by omega
  have hc : (r.val + 4 * c.val) / 4 = c.val := by omega
  simp only [shiftRows, Vector.getElem_ofFn, hr, hc]

/-- R91 by rows and columns. -/
theorem unshiftRows_row_col : (unshiftRows b)[r.val + 4 * c.val] = b[r.val + 4 * ((c.val + 4 - r.val) % 4)] := by
  have hr : (r.val + 4 * c.val) % 4 = r.val := by omega
  have hc : (r.val + 4 * c.val) / 4 = c.val := by omega
  simp only [unshiftRows, Vector.getElem_ofFn, hr, hc]

end

/-- A Block is its 16 places, by row and column. -/
theorem block_ext_row_col {a b : Block} (h : ∀ r c : Fin 4, a[r.val + 4 * c.val] = b[r.val + 4 * c.val]) : a = b := by
  apply Vector.ext
  intro i hi
  simpa [Nat.mod_add_div] using h ⟨i % 4, by omega⟩ ⟨i / 4, by omega⟩

/-- R92: the column `(c - r) + r` is column `c` again. -/
theorem unshiftRows_shiftRows (b : Block) : unshiftRows (shiftRows b) = b := by
  refine block_ext_row_col fun r c => ?_
  have hback : ((c.val + 4 - r.val) % 4 + r.val) % 4 = c.val := by omega
  have h := shiftRows_row_col b r ⟨(c.val + 4 - r.val) % 4, by omega⟩
  rw [unshiftRows_row_col]
  simpa only [hback] using h

/-- R92: the column `(c + r) - r` is column `c` again. -/
theorem shiftRows_unshiftRows (b : Block) : shiftRows (unshiftRows b) = b := by
  refine block_ext_row_col fun r c => ?_
  have hback : ((c.val + r.val) % 4 + 4 - r.val) % 4 = c.val := by omega
  have h := unshiftRows_row_col b r ⟨(c.val + r.val) % 4, by omega⟩
  rw [shiftRows_row_col]
  simpa only [hback] using h

theorem shiftRows_replicate (v : Byte) : shiftRows (Vector.replicate 16 v) = Vector.replicate 16 v :=
  block_ext_row_col fun r c => by rw [shiftRows_row_col]; simp only [Vector.getElem_replicate]

/-- Settles O26, place by place; column `c + 0` of row 0 is column `c`. -/
theorem shiftrowsShiftsLeft : Obligations.ShiftrowsShiftsLeft := by
  refine ⟨fun s => ⟨shiftRows s.w, rfl, shiftRows_row_col s.w, ?_⟩, shiftRows_replicate, rfl⟩
  exact ⟨shiftRows_row_col s.w 0 0, shiftRows_row_col s.w 0 1, shiftRows_row_col s.w 0 2, shiftRows_row_col s.w 0 3⟩

/-- Settles O27, place by place; column `c - 0` of row 0 is column `c`. -/
theorem unshiftrowsShiftsRight : Obligations.UnshiftrowsShiftsRight := by
  refine ⟨fun s => ⟨unshiftRows s.w, rfl, unshiftRows_row_col s.w, ?_⟩, rfl⟩
  exact ⟨unshiftRows_row_col s.w 0 0, unshiftRows_row_col s.w 0 1, unshiftRows_row_col s.w 0 2,
    unshiftRows_row_col s.w 0 3⟩

/-- On the machine too: both operations overwrite W alone (log 12), so the inverse law on Blocks undoes the step. -/
theorem exec_shiftrows_iff_unshiftrows (s t : State) : exec .shiftrows s = .next t ↔ exec .unshiftrows t = .next s := by
  constructor <;> intro h <;> cases h
  · exact congrArg (fun w => Host.Outcome.next { s with w := w }) (unshiftRows_shiftRows s.w)
  · exact congrArg (fun w => Host.Outcome.next { t with w := w }) (shiftRows_unshiftRows t.w)

/-- Settles O28: the inverse law on Blocks and on the machine; the index tables are evaluated at the 16 places. -/
theorem permutationsAreMutualInverses : Obligations.PermutationsAreMutualInverses := by
  refine ⟨fun b => ⟨unshiftRows_shiftRows b, shiftRows_unshiftRows b⟩, exec_shiftrows_iff_unshiftrows, ?_⟩
  intro sr usr i
  have hsrusr : ∀ i : Fin 16, sr[usr[i.val]!]! = i.val := by decide
  have husrsr : ∀ i : Fin 16, usr[sr[i.val]!]! = i.val := by decide
  have hsr : ∀ i : Fin 16, sr[i.val]! = i.val % 4 + 4 * ((i.val / 4 + i.val % 4) % 4) := by decide
  have husr : ∀ i : Fin 16, usr[i.val]! = i.val % 4 + 4 * ((i.val / 4 + 4 - i.val % 4) % 4) := by decide
  refine ⟨hsrusr i, husrsr i, fun b => ⟨?_, ?_⟩⟩
  · rw [shiftRows_get, hsr, getElem!_pos]
  · rw [unshiftRows_get, husr, getElem!_pos]

theorem permute_zero (b : Block) : permute 0#1 b = shiftRows b := rfl

theorem permute_one (b : Block) : permute 1#1 b = unshiftRows b := rfl

theorem exec_perm (s : State) : exec .perm s = .next { s with w := permute s.dir s.w } := rfl

/-- Settles O29: DIR selects the permutation, and either way W alone is written. -/
theorem permIsChosenByTheDirection : Obligations.PermIsChosenByTheDirection := by
  intro s
  rw [exec_perm]
  constructor
  · intro hd
    rw [hd, permute_zero]
  · intro hd
    rw [hd, permute_one]

end Sys2Proof.Machine

namespace Sys2Proof.Machine

/-! ### Nibble pairs: the halves, and the masks and shifts of the rules (R67, R68) -/

/-- The half `h` of a byte, 0 high, 1 low (R27). -/
def half (h : Fin 2) (x : Byte) : Nibble := if h = 0 then hi x else lo x

@[simp] theorem half_zero (x : Byte) : half 0 x = hi x := rfl

@[simp] theorem half_one (x : Byte) : half 1 x = lo x := rfl

/-- Each half of a fold step is one lookup on the pair of the same halves of its operands: no half meets the other. -/
theorem half_foldStep (t : Fin 2 → Byte → Nibble) (h : Fin 2) (acc nxt : Byte) :
    half h (foldStep (t 0) (t 1) acc nxt) = t h (joinNibbles (half h acc) (half h nxt)) := by
  match h with
  | 0 => exact hi_joinNibbles _ _
  | 1 => exact lo_joinNibbles _ _

theorem joinNibbles_half (x : Byte) : joinNibbles (half 0 x) (half 1 x) = x := by
  rw [half_zero, half_one]
  revert x
  decide +kernel

/-- A byte is its two halves. -/
theorem byte_ext_half {x y : Byte} (h : ∀ k, half k x = half k y) : x = y := by
  rw [← joinNibbles_half x, h 0, h 1, joinNibbles_half]

theorem half_xor (h : Fin 2) (x y : Byte) : half h (x ^^^ y) = half h x ^^^ half h y := by
  match h with
  | 0 => exact BitVec.extractLsb'_xor
  | 1 => exact BitVec.extractLsb'_xor

/-- R68 as the rule writes it. -/
theorem joinNibbles_eq (high low : Nibble) :
    joinNibbles high low = (high.setWidth 8 <<< 4) ||| low.setWidth 8 := by
  rw [joinNibbles, BitVec.append_def, BitVec.shiftLeftZeroExtend_eq, BitVec.setWidth'_eq]

theorem setWidth_hi (x : Byte) : (hi x).setWidth 8 = x >>> 4 := by
  revert x
  decide +kernel

theorem setWidth_hi_shiftLeft (x : Byte) : (hi x).setWidth 8 <<< 4 = x &&& 0xF0#8 := by
  revert x
  decide +kernel

theorem setWidth_lo (x : Byte) : (lo x).setWidth 8 = x &&& 0x0F#8 := by
  revert x
  decide +kernel

/-- R67 for the high halves: the accumulator's nibble stays in place, the next partial's is shifted below it. -/
theorem pairHigh_eq (acc nxt : Byte) : pairHigh acc nxt = (acc &&& 0xF0#8) ||| (nxt >>> 4) := by
  rw [← setWidth_hi_shiftLeft, ← setWidth_hi]
  exact joinNibbles_eq (hi acc) (hi nxt)

/-- R67 for the low halves. -/
theorem pairLow_eq (acc nxt : Byte) : pairLow acc nxt = ((acc &&& 0x0F#8) <<< 4) ||| (nxt &&& 0x0F#8) := by
  rw [← setWidth_lo, ← setWidth_lo]
  exact joinNibbles_eq (lo acc) (lo nxt)

/-- Settles O31: well-formed selectors name tables, and the pairs and the join are the masks and shifts. -/
theorem foldstepPacksLooksUpAndJoins : Obligations.FoldstepPacksLooksUpAndJoins := by
  intro s th tl acc nxt hth htl
  rw [← nibTable_isSome Config.tables, Option.isSome_iff_exists] at hth htl
  obtain ⟨high, hhigh⟩ := hth
  obtain ⟨low, hlow⟩ := htl
  refine ⟨high, low, hhigh, hlow, ?_⟩
  simp only [exec, execFoldstep, hhigh, hlow, foldStep, pairHigh_eq, pairLow_eq, joinNibbles_eq, State.setOut]

/-! ### EXPANDW and FOLDW on a column of W (R100, R102) -/

theorem toFin_ofNat_col (c : Fin 4) : (BitVec.ofNat 2 c.val).toFin = c :=
  Fin.ofNat_val_eq_self (n := 4) c

section
variable (path : Path) (r : Fin 9) (c : Fin 4) (s : State)

/-- EXPANDW with its fields naming round `r` and column `c`. -/
theorem exec_expandw_ofNat :
    exec (.expandw path (BitVec.ofNat 4 r.val) (BitVec.ofNat 2 c.val)) s =
      .next (expandColumn Config.tables path r c s) := by
  simp only [exec, execExpandw, roundOf_ofNat, toFin_ofNat_col]

/-- FOLDW with its fields naming round `r` and column `c`. -/
theorem exec_foldw_ofNat :
    exec (.foldw path (BitVec.ofNat 4 r.val) (BitVec.ofNat 2 c.val)) s =
      .next (foldColumn Config.tables path r c s) := by
  simp only [exec, execFoldw, roundOf_ofNat, toFin_ofNat_col]

end

/-- Partial `j` of a column is the entry of table `j` at byte `4c+j` (R69, R100). -/
theorem expandW_columnOf_get (tab : Fin 4 → Byte → Word) (b : Block) (c j : Fin 4) :
    (expandW tab (columnOf b c))[j] = tab j b[4 * c.val + j.val] := by
  rw [expandW_get, columnOf_get]
  rfl

/-- Settles O30: the operation is the expansion of the column by the tables of its path. -/
theorem expandwLooksUpEachByte : Obligations.ExpandwLooksUpEachByte := fun s r c =>
  ⟨⟨_, exec_expandw_ofNat .high r c s, expandW_columnOf_get _ s.w c⟩,
    ⟨_, exec_expandw_ofNat .low r c s, expandW_columnOf_get _ s.w c⟩⟩

theorem withColumn_get_same (b : Block) (c j : Fin 4) (v : Word) :
    (withColumn b c v)[4 * c.val + j.val] = v[j] := by
  have h := columnOf_get (withColumn b c v) c j
  rw [columnOf_withColumn_same] at h
  exact h.symm

theorem withColumn_get_other (b : Block) {c : Fin 4} {i : Fin 16} (h : i.val / 4 ≠ c.val) (v : Word) :
    (withColumn b c v)[i] = b[i] := by
  simp [withColumn, h]

/-- R102 written out: `(((p0 ∘ p1) ∘ p2) ∘ p3)` at byte `j`, step `st` by the tables of step `st`. -/
theorem foldW_get (x : Fin 3 → Fin 4 → Fin 2 → Byte → Nibble) (q : Vector Word 4) (j : Fin 4) :
    (foldW x q)[j] =
      foldStep (x 2 j 0) (x 2 j 1)
        (foldStep (x 1 j 0) (x 1 j 1) (foldStep (x 0 j 0) (x 0 j 1) (q[0])[j] (q[1])[j]) (q[2])[j]) (q[3])[j] := by
  rw [foldW, fold, foldUpTo_succ_get, foldUpTo_succ_get, foldUpTo_succ_get, foldUpTo_zero]
  rfl

/-- Settles O32: FOLDW replaces the column by the fold of PW, whose bytes are the rule's. -/
theorem foldwFoldsLeftToRight : Obligations.FoldwFoldsLeftToRight := by
  intro s path r c
  refine ⟨_, exec_foldw_ofNat path r c s, fun j => ?_, fun i hi => withColumn_get_other s.w hi _⟩
  rw [withColumn_get_same, foldW_get]
  cases path <;> rfl

/-! ### Folds of any size (R102, R104, R111) -/

/-- R104: half `h` of byte `b` of the accumulator depends on that half of that byte of the partials and on that half's
tables alone. -/
theorem half_foldUpTo_congr {n k : Nat} {x y : Fin k → Fin n → Fin 2 → Byte → Nibble}
    {p q : Vector (Vector Byte n) (k + 1)} {b : Fin n} {h : Fin 2} (hx : ∀ st, x st b h = y st b h)
    (hq : ∀ j : Fin (k + 1), half h (p[j])[b] = half h (q[j])[b]) (m : Nat) (hm : m ≤ k) :
    half h (foldUpTo x p m hm)[b] = half h (foldUpTo y q m hm)[b] := by
  induction m with
  | zero => exact hq 0
  | succ m ih =>
    have hnext : half h (p[m + 1])[b] = half h (q[m + 1])[b] := hq ⟨m + 1, by omega⟩
    rw [foldUpTo_succ_get, foldUpTo_succ_get, half_foldStep, half_foldStep, ih, hnext, hx]

/-- Settles O33: the high halves and the low halves are the two values of `h`. -/
theorem foldLanesAreIndependent : Obligations.FoldLanesAreIndependent := fun _ k _ _ _ _ _ =>
  ⟨fun hx hq => half_foldUpTo_congr (h := 0) hx hq k k.le_refl,
    fun hx hq => half_foldUpTo_congr (h := 1) hx hq k k.le_refl⟩

/-- The plain exclusive-or table: of a pair of nibbles, their exclusive-or. -/
def xorTable (x : Byte) : Nibble := hi x ^^^ lo x

theorem xorTable_joinNibbles (a b : Nibble) : xorTable (joinNibbles a b) = a ^^^ b := by
  rw [xorTable, hi_joinNibbles, lo_joinNibbles]

theorem foldStep_xorTable (acc nxt : Byte) : foldStep xorTable xorTable acc nxt = acc ^^^ nxt := by
  apply byte_ext_half
  intro h
  rw [half_foldStep (fun _ => xorTable), xorTable_joinNibbles, half_xor]

/-- After `m` steps the accumulator is the exclusive-or of the first `m + 1` partials. -/
theorem foldUpTo_xorTable_get {n k : Nat} (q : Vector (Vector Byte n) (k + 1)) (b : Fin n) (m : Nat) (hm : m ≤ k) :
    (foldUpTo (fun _ _ _ => xorTable) q m hm)[b] =
      ((q.toList.take (m + 1)).map fun v => v[b]).foldl (· ^^^ ·) 0#8 := by
  induction m with
  | zero =>
    rw [foldUpTo_zero, List.take_add_one]
    simp
  | succ m ih =>
    rw [foldUpTo_succ_get, foldStep_xorTable, ih, List.take_add_one (i := m + 1), List.map_append, List.foldl_append]
    simp [hm]

/-- Settles O34: after all `k` steps the first `k + 1` partials are all of them. -/
theorem exclusiveOrTablesFoldToExclusiveOr : Obligations.ExclusiveOrTablesFoldToExclusiveOr := by
  intro n k q b
  have hall : q.toList.take (k + 1) = q.toList := List.take_of_length_le (by simp)
  have h := foldUpTo_xorTable_get q b k k.le_refl
  rwa [hall] at h

end Sys2Proof.Machine

namespace Sys2Proof.Machine

/-! ### EXPANDB and FOLDB (R110, R111) -/

theorem exec_expandb (side : Side) (s : State) :
    exec (.expandb side) s = .next { s with pb := expandB (sideTables Config.tables side) s.w } := rfl

theorem exec_foldb (side : Side) (s : State) :
    exec (.foldb side) s = .next { s with w := foldB (sideChain Config.tables side) s.pb } := rfl

/-- Settles O35: the operation is the expansion of W by the mask tables of its side. -/
theorem expandbLooksUpEachByte : Obligations.ExpandbLooksUpEachByte := fun s =>
  ⟨⟨_, exec_expandb .input s, expandB_get Config.tables.im s.w⟩,
    ⟨_, exec_expandb .output s, expandB_get Config.tables.om s.w⟩⟩

/-- The accumulator of a fold after `m` steps for every `m`: from step `k` on, it is the whole fold. -/
def foldAcc {n k : Nat} (x : Fin k → Fin n → Fin 2 → Byte → Nibble) (q : Vector (Vector Byte n) (k + 1)) (m : Nat) :
    Vector Byte n :=
  foldUpTo x q (min m k) (Nat.min_le_right m k)

section
variable {n k : Nat} (x : Fin k → Fin n → Fin 2 → Byte → Nibble) (q : Vector (Vector Byte n) (k + 1))

theorem foldAcc_of_le {m : Nat} (h : m ≤ k) : foldAcc x q m = foldUpTo x q m h := by
  simp only [foldAcc, Nat.min_eq_left h]

theorem foldAcc_zero : foldAcc x q 0 = q[0] := by
  rw [foldAcc_of_le x q k.zero_le, foldUpTo_zero]

theorem foldAcc_size : foldAcc x q k = fold x q := foldAcc_of_le x q k.le_refl

/-- Step `st` combines the accumulator with partial `st + 1` by the tables of step `st`. -/
theorem foldAcc_succ_get (st : Fin k) (b : Fin n) :
    (foldAcc x q (st.val + 1))[b] = foldStep (x st b 0) (x st b 1) (foldAcc x q st.val)[b] (q[st.val + 1])[b] := by
  rw [foldAcc_of_le x q st.isLt, foldAcc_of_le x q st.isLt.le, foldUpTo_succ_get]

end

/-- Settles O36: the accumulators are those of the fold of PB by the chain of the side, and W is the last of them. -/
theorem foldbFoldsLeftToRight : Obligations.FoldbFoldsLeftToRight := by
  intro s side
  refine ⟨foldAcc (sideChain Config.tables side) s.pb, ?_, foldAcc_zero _ s.pb, fun st b => ?_⟩
  · rw [exec_foldb, foldB, foldAcc_size]
  · have hstep := foldAcc_succ_get (sideChain Config.tables side) s.pb st b
    cases side with
    | input => exact hstep
    | output => exact hstep

end Sys2Proof.Machine

namespace Sys2Proof.Machine

/-! ### The sequencer operations, alone and as their units (R120 to R124, R127) -/

/-- COLUMN with its round field naming round `r`. -/
theorem exec_column_round (r : Fin 9) (col : BitVec 2) (s : State) :
    exec (.column (BitVec.ofNat 4 r.val) col) s = .next (columnW Config.tables r col.toFin s) := by
  simp only [exec, execColumn, roundOf_ofNat]

/-- COLUMN with its fields naming round `r` and column `c`. -/
theorem exec_column_ofNat (r : Fin 9) (c : Fin 4) (s : State) :
    exec (.column (BitVec.ofNat 4 r.val) (BitVec.ofNat 2 c.val)) s = .next (columnW Config.tables r c s) := by
  rw [exec_column_round, toFin_ofNat_col]

/-- MAIN_ROUND with its field naming round `r`. -/
theorem exec_mainRound_ofNat (r : Fin 9) (s : State) :
    exec (.mainRound (BitVec.ofNat 4 r.val)) s = .next (mainRound Config.tables r s) := by
  simp only [exec, execMainRound, roundOf_ofNat]

/-- INPUT_UNMASK where the 16 source addresses exist (R120). -/
theorem inputUnmask_next (T : TableStore) {s : State} (hfit : s.srcAddr.toNat + 16 ≤ 2 ^ 32) :
    inputUnmask T s = .next { s with
      w := foldB T.ix (expandB T.im (bytesAt s.buf s.srcAddr)), pb := expandB T.im (bytesAt s.buf s.srcAddr)
      seq := .mainRound 0 } := by
  rw [inputUnmask_eq, if_pos hfit]

/-- Settles O37: the source addresses exist, so the operation completes with the fold. -/
theorem inputUnmaskReadsExpandsAndFolds : Obligations.InputUnmaskReadsExpandsAndFolds :=
  fun _ hfit => inputUnmask_next Config.tables hfit

/-- Settles O38: the two paths overwrite one column, and the columns of the result are its own and the old ones. -/
theorem columnTakesTheHighThenTheLowPath : Obligations.ColumnTakesTheHighThenTheLowPath := by
  intro s r c
  refine ⟨_, _, (exec_column_ofNat r c s).trans (congrArg _ (columnW_eq Config.tables r c s)), ⟨rfl, ?_⟩,
    fun d hd => ?_⟩
  · exact columnOf_withColumn_same s.w c _
  · rw [columnOf_withColumn, if_neg hd]

/-- The successor by the round counter, in the words of R63. -/
theorem nextRound_cases (r : Fin 9) :
    if r.val < 8 then seqWord (nextRound r) = 0x11#6 + BitVec.ofNat 6 r.val else nextRound r = .finalRound := by
  revert r
  decide

/-- Settles O39: W is the main round of R125, whose columns are COLUMN of the permuted columns. -/
theorem mainRoundPermutesThenTransformsColumns : Obligations.MainRoundPermutesThenTransformsColumns := by
  intro s r
  exact ⟨_, _, _, (exec_mainRound_ofNat r s).trans (congrArg _ (mainRound_eq Config.tables r s)),
    columnOf_roundBlock Config.tables s.dir r s.w, nextRound_cases r⟩

/-- Settles O40: the 16 addresses exist, so the fold is stored, and a store writes its 16 bytes alone. -/
theorem finalRoundWritesTheBlockAndResponds : Obligations.FinalRoundWritesTheBlockAndResponds := by
  intro s hwf hfit
  obtain ⟨m, hm⟩ := storeBlock_fits hfit s.buf
    (foldB Config.tables.ox (expandB Config.tables.om (permute s.dir s.w)))
  obtain ⟨-, hbytes, hother⟩ := storeBlock_spec hwf hm
  exact ⟨_, _, m, finalRound_next Config.tables s hm, rfl, rfl, hbytes, hother⟩

/-- Settles O41: DONE is the identity, and a step in DONE with nothing from the host runs it. -/
theorem doneChangesNothing : Obligations.DoneChangesNothing :=
  ⟨fun _ => rfl, fun _ hs hu hh hr => step_of_idle hr hu hs hh⟩

/-- Settles O42: each composite is by definition its units in order; INPUT_UNMASK where the source bytes exist. -/
theorem compositeOperationsInvokeTheirUnits : Obligations.CompositeOperationsInvokeTheirUnits := by
  refine ⟨fun s r => ?_, fun s r c => ?_, fun s hfit => ?_⟩
  · exact ⟨_, _, _, _, _, nextRound r, exec_perm s, exec_column_round r 0 _, exec_column_round r 1 _,
      exec_column_round r 2 _, exec_column_round r 3 _, exec_mainRound_ofNat r s⟩
  · exact ⟨_, _, _, _, exec_expandw_ofNat .high r c s, exec_foldw_ofNat .high r c _, exec_expandw_ofNat .low r c _,
      exec_foldw_ofNat .low r c _, exec_column_ofNat r c s⟩
  · exact ⟨_, _, exec_expandb .input _, exec_foldb .input _, inputUnmask_next Config.tables hfit⟩

/-- R127: each of two different columns is transformed from its old value, whichever goes first. -/
theorem columnW_comm_w (T : TableStore) (r : Fin 9) {c d : Fin 4} (hcd : c ≠ d) (s : State) :
    (columnW T r d (columnW T r c s)).w = (columnW T r c (columnW T r d s)).w := by
  apply block_ext_columns
  intro e
  simp only [columnW_w, if_neg hcd, if_neg hcd.symm]
  by_cases hc : e = c
  · subst hc
    simp only [if_neg hcd, if_true]
  · simp only [if_neg hc]

/-- Settles O43: the passes compose on W to the same Block. -/
theorem columnsCommute : Obligations.ColumnsCommute := by
  intro s r c d hcd
  exact ⟨_, _, _, _, exec_column_ofNat r c s, exec_column_ofNat r d _, exec_column_ofNat r d s,
    exec_column_ofNat r c _, columnW_comm_w Config.tables r hcd s⟩

/-! ### CRYPT, stage by stage (R125) -/

/-- The Block after INPUT_UNMASK and `m` main rounds, for every `m`: from the ninth on, the last of them. Irreducible:
used through its equations below, for unfolding it unfolds nine nested rounds. -/
@[irreducible] def cryptStage (T : TableStore) (d : BitVec 1) (b : Block) (m : Nat) : Block :=
  cryptRounds T d b (min m 9) (Nat.min_le_right m 9)

section
variable (T : TableStore) (d : BitVec 1) (b : Block)

theorem cryptStage_of_le {m : Nat} (h : m ≤ 9) : cryptStage T d b m = cryptRounds T d b m h := by
  simp only [cryptStage, Nat.min_eq_left h]

theorem cryptStage_zero : cryptStage T d b 0 = foldB T.ix (expandB T.im b) := by
  rw [cryptStage_of_le T d b (Nat.zero_le 9), cryptRounds]

theorem cryptStage_succ (r : Fin 9) : cryptStage T d b (r.val + 1) = roundBlock T d r (cryptStage T d b r.val) := by
  rw [cryptStage_of_le T d b r.isLt, cryptStage_of_le T d b r.isLt.le, cryptRounds]

/-- The output side takes the stage after the nine main rounds. -/
theorem crypt_eq_cryptStage : crypt T d b = foldB T.ox (expandB T.om (permute d (cryptStage T d b 9))) := by
  rw [crypt_eq, cryptStage_of_le]

end

/-- Settles O44: the stages are the Blocks after each main round. -/
theorem cryptIsThePipeline : Obligations.CryptIsThePipeline := by
  intro s d src
  refine ⟨cryptStage Config.tables d src, cryptStage_zero .., fun r c => ?_, ?_⟩
  · rw [cryptStage_succ, columnOf_roundBlock]
  · rw [← crypt_eq_cryptStage]
    rfl

/-! ### One step, by the word it takes (R124, R126, R138) -/

theorem runWord_of_decode {c : CodeWord} {i : Instr} (h : decode c = .ok i) (s : State) : runWord c s = exec i s := by
  rw [runWord, h]

/-- While a command is under way the step runs the word of SEQ (R126). -/
theorem step_of_seqWord {s : State} (hr : s.noReset = true) (hu : s.unitReq = none) (hs : s.seq ≠ .done) :
    step s = runWord (.seq (seqWord s.seq)) { s with resetLine := s.resetLine.tail } := by
  rw [noReset_iff] at hr
  simp only [step, turn, hr, if_false, hu, hs, consume]

/-- Settles O10, by what the step takes its word from: a unit request, SEQ, the host, or nothing. -/
theorem stepRunsTheDecodedOperation : Obligations.StepRunsTheDecodedOperation := by
  intro s i hr
  refine ⟨fun u hu hd => ?_, fun hu hs hd => ?_, fun c rest hu hs hh hd => ?_, fun hu hs hh => ?_⟩
  · rw [step_of_unit hr hu, runWord_of_decode hd]
  · rw [step_of_seqWord hr hu hs, runWord_of_decode hd]
  · rw [step_of_command hr hu hs hh, runWord_of_decode hd]
  · exact step_of_idle hr hu hs hh

/-! ### A run of a cipher command (R126) -/

section
variable {s : State} (hl : s.resetLine = []) (hu : s.unitReq = none)
include hl

theorem noReset_of_nil : s.noReset = true := by
  simp [noReset_iff, hl]

theorem tail_resetLine_of_nil : { s with resetLine := s.resetLine.tail } = s := by
  apply State.ext <;> simp [hl]

include hu

/-- With no reset to come, the step of a command under way is the operation of the value of SEQ. -/
theorem step_eq_exec {q : Seq} {i : Instr} (hs : s.seq = q) (hq : q ≠ .done) (hd : decode (.seq (seqWord q)) = .ok i) :
    step s = exec i s := by
  subst hs
  rw [step_of_seqWord (noReset_of_nil hl) hu hq, tail_resetLine_of_nil hl, runWord_of_decode hd]

end

/-- The value of SEQ once `m` main rounds are done (R21). -/
def seqAfterRounds (m : Nat) : Seq := if h : m < 9 then .mainRound ⟨m, h⟩ else .finalRound

theorem seqAfterRounds_of_lt (r : Fin 9) : seqAfterRounds r.val = .mainRound r := dif_pos r.isLt

theorem seqAfterRounds_succ (r : Fin 9) : seqAfterRounds (r.val + 1) = nextRound r := rfl

/-- The state `s` at INPUT_UNMASK once that and `m` main rounds are done: W is that stage of CRYPT on the source bytes,
PB the partials of INPUT_UNMASK, PW scratch. -/
def afterRounds (s : State) (m : Nat) (pw : Vector Word 4) : State :=
  { s with
    w := cryptStage Config.tables s.dir (bytesAt s.buf s.srcAddr) m
    pb := expandB Config.tables.im (bytesAt s.buf s.srcAddr)
    pw := pw
    seq := seqAfterRounds m }

section
variable {s : State} (hl : s.resetLine = []) (hu : s.unitReq = none)
include hl hu

/-- INPUT_UNMASK leads to stage 0. -/
theorem step_to_afterRounds_zero (hs : s.seq = .inputUnmask) (hfit : s.srcAddr.toNat + 16 ≤ 2 ^ 32) :
    step s = .next (afterRounds s 0 s.pw) := by
  rw [step_eq_exec hl hu hs nofun (decode_seqWord _), inputUnmaskReadsExpandsAndFolds s hfit, afterRounds,
    cryptStage_zero]
  rfl

/-- A main round leads from a stage to the next. -/
theorem step_afterRounds (r : Fin 9) (pw : Vector Word 4) :
    ∃ pw', step (afterRounds s r.val pw) = .next (afterRounds s (r.val + 1) pw') := by
  have hseq : (afterRounds s r.val pw).seq = .mainRound r := seqAfterRounds_of_lt r
  refine ⟨(mainRound Config.tables r (afterRounds s r.val pw)).pw, ?_⟩
  rw [step_eq_exec (s := afterRounds s r.val pw) hl hu hseq nofun (decode_seqWord _), exec_mainRound_ofNat,
    mainRound_eq]
  simp only [afterRounds, cryptStage_succ, seqAfterRounds_succ]

/-- By induction over the rounds: a run from stage 0 reaches stage `m` in `m` steps. -/
theorem run_afterRounds (m : Nat) (hm : m ≤ 9) (k : Nat) (pw : Vector Word 4) :
    ∃ pw', core.run (k + m) (afterRounds s 0 pw) = core.run k (afterRounds s m pw') := by
  induction m generalizing k with
  | zero => exact ⟨pw, rfl⟩
  | succ m ih =>
    obtain ⟨pw₁, hrun⟩ := ih (by omega) (k + 1)
    obtain ⟨pw₂, hstep⟩ := step_afterRounds hl hu ⟨m, hm⟩ pw₁
    exact ⟨pw₂, by rw [show k + (m + 1) = k + 1 + m by omega, hrun, run_succ hstep]⟩

/-- FINAL_ROUND leads from the last stage to DONE, with CRYPT of the source bytes in W and stored. -/
theorem step_afterRounds_nine {m : Memory} (pw : Vector Word 4)
    (hm : storeBlock s.buf s.dstAddr (crypt Config.tables s.dir (bytesAt s.buf s.srcAddr)) = some m) :
    ∃ pb, step (afterRounds s 9 pw) = .next { s with
      w := crypt Config.tables s.dir (bytesAt s.buf s.srcAddr), pb := pb, pw := pw, buf := m
      resp := s.resp ++ [⟨.ok, 0⟩], seq := .done } := by
  rw [step_eq_exec (s := afterRounds s 9 pw) hl hu rfl nofun (decode_seqWord .finalRound)]
  rw [crypt_eq_cryptStage] at hm ⊢
  exact ⟨_, finalRound_next Config.tables (afterRounds s 9 pw) hm⟩

/-- A cipher command from INPUT_UNMASK to DONE: one step, nine main rounds, one step. -/
theorem run_cipher (hs : s.seq = .inputUnmask) (hfit : s.srcAddr.toNat + 16 ≤ 2 ^ 32) {m : Memory}
    (hm : storeBlock s.buf s.dstAddr (crypt Config.tables s.dir (bytesAt s.buf s.srcAddr)) = some m) :
    ∃ pb pw, core.run 11 s = .next { s with
      w := crypt Config.tables s.dir (bytesAt s.buf s.srcAddr), pb := pb, pw := pw, buf := m
      resp := s.resp ++ [⟨.ok, 0⟩], seq := .done } := by
  obtain ⟨pw, hrounds⟩ := run_afterRounds hl hu 9 (Nat.le_refl 9) 1 s.pw
  obtain ⟨pb, hfinal⟩ := step_afterRounds_nine hl hu pw hm
  refine ⟨pb, pw, ?_⟩
  rw [run_succ (step_to_afterRounds_zero hl hu hs hfit), hrounds, run_succ hfinal]
  rfl

end

/-- Settles O57: the run stores CRYPT of the source bytes, read before anything is written, so an overlap of the two
ranges does not matter; what a store reads back as says the rest. -/
theorem acceptedCommandWritesCrypt : Obligations.AcceptedCommandWritesCrypt := by
  intro s hwf hs hu hl hsrc hdst
  obtain ⟨m, hm⟩ := storeBlock_fits hdst s.buf (crypt Config.tables s.dir (bytesAt s.buf s.srcAddr))
  obtain ⟨pb, pw, hrun⟩ := run_cipher hl hu hs hsrc hm
  obtain ⟨-, -, hother⟩ := storeBlock_spec hwf hm
  exact ⟨_, hrun, bytesAt_storeBlock hwf hm, hother, rfl, rfl, rfl, rfl, ⟨rfl, rfl, rfl, rfl, rfl⟩, ⟨rfl, rfl, rfl⟩⟩

end Sys2Proof.Machine

namespace Sys2Proof.Machine

/-! ### The acceptance procedure over plain numbers (R138) -/

/-- The direction of a cipher opcode as a number: its lowest bit (R22, R61). -/
theorem opcodeDir_eq_ofNat (op : Byte) : opcodeDir op = BitVec.ofNat 1 op.toNat := by
  apply BitVec.eq_of_toNat_eq
  simp [opcodeDir, BitVec.extractLsb'_toNat]

section
variable {cap : DirCap} {op : Byte} {dstAddr dstLen srcAddr srcLen : Addr} {s : State}

/-- In DONE, the whole procedure in the order of R138: the opcode, BLKSZ, the slices, the lengths, the start. -/
theorem acceptCommand_of_done (hs : s.seq = .done) :
    acceptCommand cap op dstAddr dstLen srcAddr srcLen s =
      if (op ≠ 0x01 ∧ op ≠ 0x02 ∧ op ≠ 0x03) ∨ (op = 0x02 ∧ cap = .decOnly) ∨ (op = 0x03 ∧ cap = .encOnly) then
        s.respond ⟨.illegalCommand, op⟩
      else if op = 0x01 then s.respond ⟨.ok, 16⟩
      else if 2 ^ 32 < srcAddr.toNat + srcLen.toNat ∨ 2 ^ 32 < dstAddr.toNat + dstLen.toNat then
        s.respond ⟨.badSlice, 0⟩
      else if srcLen.toNat < 16 then s.respond ⟨.invalidInputLength, 0⟩
      else if dstLen.toNat < 16 then s.respond ⟨.invalidOutputLength, 0⟩
      else (s.latch (opcodeDir op) dstAddr dstLen srcAddr srcLen).setSeq .inputUnmask := by
  simp only [← reservedOpcode_iff]
  cases hres : reservedOpcode cap op with
  | true => rw [acceptCommand_reserved hs hres, if_pos rfl]
  | false =>
    rw [if_neg Bool.false_ne_true]
    by_cases hop : op = 0x01
    · rw [if_pos hop, show op = 0x01#8 from hop, acceptCommand_blksz hs]
    · rw [if_neg hop, acceptCommand_cipher hs hres hop]

/-- A cipher command that passes every check is latched and started. -/
theorem PassesChecks.acceptCommand_eq (hp : PassesChecks cap op dstAddr dstLen srcAddr srcLen) (hs : s.seq = .done) :
    acceptCommand cap op dstAddr dstLen srcAddr srcLen s =
      (s.latch (opcodeDir op) dstAddr dstLen srcAddr srcLen).setSeq .inputUnmask := by
  obtain ⟨hres, hcipher, hsrc, hdst, hsrcLen, hdstLen⟩ := hp
  have hop : op ≠ 0x01#8 := by
    obtain rfl | rfl := hcipher <;> decide
  rw [acceptCommand_cipher hs hres hop, if_neg (by omega), if_neg (by omega), if_neg (by omega)]

@[simp] theorem acceptCommand_host : (acceptCommand cap op dstAddr dstLen srcAddr srcLen s).host = s.host := by
  obtain ⟨-, h⟩ | ⟨-, r, h⟩ | ⟨-, -, h⟩ := acceptCommand_cases cap op dstAddr dstLen srcAddr srcLen s <;> simp [h]

end

section
variable {s t : State}

/-- In DONE the step that takes a command word is the acceptance procedure on its fields (R60, R138). -/
theorem step_of_command_eq {c : BitVec 136} {rest : List HostMove} (hr : s.noReset = true) (hu : s.unitReq = none)
    (hs : s.seq = .done) (hh : s.host = .command c :: rest) :
    step s = .next (acceptCommand Config.dircap (cmdOpcode c) (cmdDstAddr c) (cmdDstLen c) (cmdSrcAddr c)
      (cmdSrcLen c) { s with resetLine := s.resetLine.tail, host := rest }) := by
  rw [step_of_command hr hu hs hh]
  exact runWord_command (s := { s with resetLine := s.resetLine.tail, host := rest }) c hs

/-- No operation takes a move of the host. -/
theorem exec_host {i : Instr} (h : exec i s = .next t) : t.host = s.host := by
  cases exec_effect h with
  | blksz => exact acceptCommand_host
  | enc dstAddr dstLen srcAddr srcLen => exact acceptCommand_host
  | dec dstAddr dstLen srcAddr srcLen => exact acceptCommand_host
  | scratch hi pb pw out => rfl
  | unit hi w pw => rfl
  | inputUnmask hfit w pb => rfl
  | mainRound r w pw => rfl
  | finalRound w pb m hm => rfl

/-- While a command is under way the port is not ready (R138). -/
theorem consume_host_underway (hs : s.seq ≠ .done) : (consume s).host = s.host := by
  unfold consume
  split
  · rfl
  · rw [if_neg hs]

/-- Whatever a step under way is, the host's moves stay. -/
theorem step_host_underway (hs : s.seq ≠ .done) (h : step s = .next t) : t.host = s.host := by
  obtain rfl | ⟨a, v, rfl⟩ | ⟨i, h⟩ | ⟨op, rfl⟩ := step_cases h
  · rfl
  · exact consume_host_underway hs
  · rw [exec_host h, consume_host_underway hs]
  · rw [acceptCommand_host, consume_host_underway hs]

end

/-- Settles O11: the step is the procedure on the fields of the word, each field its bits as a number. -/
theorem stepTakesACommandByTheAcceptanceProcedure : Obligations.StepTakesACommandByTheAcceptanceProcedure := by
  intro s c rest hr hu hs hh
  rw [step_of_command_eq hr hu hs hh,
    acceptCommand_of_done (s := { s with resetLine := s.resetLine.tail, host := rest }) hs]
  simp only [cmdOpcode_eq_ofNat, cmdDstAddr, cmdDstLen, cmdSrcAddr, cmdSrcLen, cmdField_eq_ofNat, opcodeDir_eq_ofNat,
    apply_ite Host.Outcome.next]
  rfl

/-- Settles O13: no step under way takes a move of the host, and acceptance is the identity there. -/
theorem portIsNotReadyDuringACommand : Obligations.PortIsNotReadyDuringACommand := by
  intro s hs
  have hidle (op : Byte) (dstAddr dstLen srcAddr srcLen : Addr) :
      Host.Outcome.next (acceptCommand Config.dircap op dstAddr dstLen srcAddr srcLen s) =
        (.next s : Result) := by rw [acceptCommand_underway hs]
  exact ⟨fun t h => step_host_underway hs h, hidle .., fun _ _ _ _ => ⟨hidle .., hidle ..⟩⟩

/-- Settles O21, over what acceptance can do: in DONE it answers, or it starts a cipher command. -/
theorem acceptanceRespondsOrStarts : Obligations.AcceptanceRespondsOrStarts := by
  intro cap op dstAddr dstLen srcAddr srcLen s hs
  obtain ⟨hn, -⟩ | ⟨-, r, h⟩ | ⟨-, hp, h⟩ := acceptCommand_cases cap op dstAddr dstLen srcAddr srcLen s
  · exact absurd hs hn
  · exact .inl ⟨r, h⟩
  · rw [opcodeDir_eq_ofNat] at h
    exact .inr ⟨hp.cipher, h⟩

/-- Settles O14: BLKSZ is no opcode that a strap reserves, and decoding looks at the opcode alone. -/
theorem blkszAnswersSixteen : Obligations.BlkszAnswersSixteen := by
  refine ⟨fun s hs => congrArg Host.Outcome.next (acceptCommand_blksz hs), rfl, fun c hc => ?_⟩
  have hop : cmdOpcode c = 0x01#8 := BitVec.eq_of_toNat_eq ((cmdOpcode_toNat c).trans hc)
  rw [decode, decodeCmd, if_pos hop]

/-! ### The cipher commands on slices that pass the checks (R136, R137) -/

/-- An ENC or DEC, by its opcode, whose slices and lengths pass; `lacking` is the strap of the instances that have not
got it (R71). -/
structure SoundCipher (op : Byte) (lacking : DirCap) (dstAddr dstLen srcAddr srcLen : Addr) : Prop where
  cipher : (op = 0x02#8 ∧ lacking = .decOnly) ∨ (op = 0x03#8 ∧ lacking = .encOnly)
  srcFits : srcAddr.toNat + srcLen.toNat ≤ 2 ^ 32
  dstFits : dstAddr.toNat + dstLen.toNat ≤ 2 ^ 32
  srcLong : 16 ≤ srcLen.toNat
  dstLong : 16 ≤ dstLen.toNat

namespace SoundCipher
variable {op : Byte} {cap lacking : DirCap} {dstAddr dstLen srcAddr srcLen : Addr} {s : State}

section
variable (hsrc : srcAddr.toNat + srcLen.toNat ≤ 2 ^ 32) (hdst : dstAddr.toNat + dstLen.toNat ≤ 2 ^ 32)
variable (hsrcLen : 16 ≤ srcLen.toNat) (hdstLen : 16 ≤ dstLen.toNat)
include hsrc hdst hsrcLen hdstLen

theorem enc : SoundCipher 0x02#8 .decOnly dstAddr dstLen srcAddr srcLen :=
  ⟨.inl ⟨rfl, rfl⟩, hsrc, hdst, hsrcLen, hdstLen⟩

theorem dec : SoundCipher 0x03#8 .encOnly dstAddr dstLen srcAddr srcLen :=
  ⟨.inr ⟨rfl, rfl⟩, hsrc, hdst, hsrcLen, hdstLen⟩

end

theorem reservedOpcode_iff_lacking (h : SoundCipher op lacking dstAddr dstLen srcAddr srcLen) :
    reservedOpcode cap op = true ↔ cap = lacking := by
  obtain ⟨rfl, rfl⟩ | ⟨rfl, rfl⟩ := h.cipher <;> simp [reservedOpcode_iff]

theorem passesChecks (h : SoundCipher op lacking dstAddr dstLen srcAddr srcLen) (hcap : cap ≠ lacking) :
    PassesChecks cap op dstAddr dstLen srcAddr srcLen where
  notReserved := by rwa [← Bool.not_eq_true, h.reservedOpcode_iff_lacking]
  cipher := h.cipher.imp And.left And.left
  srcFits := h.srcFits
  dstFits := h.dstFits
  srcLong := h.srcLong
  dstLong := h.dstLong

/-- The two outcomes R136 and R137 leave: the strap's refusal, or the start. -/
theorem acceptCommand_eq (h : SoundCipher op lacking dstAddr dstLen srcAddr srcLen) (hs : s.seq = .done) :
    acceptCommand cap op dstAddr dstLen srcAddr srcLen s =
      if cap = lacking then s.respond ⟨.illegalCommand, op⟩
      else (s.latch (opcodeDir op) dstAddr dstLen srcAddr srcLen).setSeq .inputUnmask := by
  by_cases hcap : cap = lacking
  · rw [if_pos hcap, acceptCommand_reserved hs (h.reservedOpcode_iff_lacking.mpr hcap)]
  · rw [if_neg hcap, (h.passesChecks hcap).acceptCommand_eq hs]

end SoundCipher

/-- Settles O15: ENC is acceptance of opcode 2, which a DEC_ONLY instance lacks and whose direction is 0. -/
theorem encIsAccepted : Obligations.EncIsAccepted := by
  intro s dstAddr dstLen srcAddr srcLen hs hsrc hdst hsrcLen hdstLen
  exact congrArg Host.Outcome.next ((SoundCipher.enc hsrc hdst hsrcLen hdstLen).acceptCommand_eq hs)

/-- Settles O16: DEC is acceptance of opcode 3, which an ENC_ONLY instance lacks and whose direction is 1. -/
theorem decIsAccepted : Obligations.DecIsAccepted := by
  intro s dstAddr dstLen srcAddr srcLen hs hsrc hdst hsrcLen hdstLen
  exact congrArg Host.Outcome.next ((SoundCipher.dec hsrc hdst hsrcLen hdstLen).acceptCommand_eq hs)

/-! ### The net effect of a cipher command, from its word to its response (R136, R137) -/

/-- What the twelve steps of a cipher command leave, `s` the state that takes it and `t` the state after its response:
CRYPT of the source bytes at the destination, the latches, one response, and the host's other moves. -/
def CipherNetEffect (d : BitVec 1) (dstAddr dstLen srcAddr srcLen : Addr) (rest : List HostMove) (s t : State) : Prop :=
  bytesAt t.buf dstAddr = crypt Config.tables d (bytesAt s.buf srcAddr) ∧
    sameBytesOutside dstAddr s t ∧ t.resp = s.resp ++ [⟨.ok, 0⟩] ∧ t.seq = .done ∧ t.dir = d ∧
    t.dstAddr = dstAddr ∧ t.dstLen = dstLen ∧ t.srcAddr = srcAddr ∧ t.srcLen = srcLen ∧ t.host = rest ∧ sameOwn s t

section
variable {op : Byte} {lacking : DirCap} {dstAddr dstLen srcAddr srcLen : Addr} {rest : List HostMove} {s : State}
variable (hu : s.unitReq = none) (hl : s.resetLine = []) (hs : s.seq = .done)
variable (hh : s.host = .command (cmdWord op dstAddr dstLen srcAddr srcLen) :: rest)
include hu hl hs hh

/-- With no reset to come, taking a command word is acceptance on the operands it was put together from. -/
theorem step_of_cmdWord :
    step s = .next (acceptCommand Config.dircap op dstAddr dstLen srcAddr srcLen { s with host := rest }) := by
  rw [step_of_command_eq (noReset_of_nil hl) hu hs hh]
  simp only [cmdOpcode_cmdWord, cmdDstAddr_cmdWord, cmdDstLen_cmdWord, cmdSrcAddr_cmdWord, cmdSrcLen_cmdWord, hl,
    List.tail_nil]

/-- One step starts the command; the eleven of its run (R126) do the rest. -/
theorem run_of_cmdWord (hwf : Memory.wf s.buf = true)
    (hp : PassesChecks Config.dircap op dstAddr dstLen srcAddr srcLen) :
    ∃ t, core.run 12 s = .next t ∧ CipherNetEffect (opcodeDir op) dstAddr dstLen srcAddr srcLen rest s t := by
  have hstart := step_of_cmdWord hu hl hs hh
  rw [hp.acceptCommand_eq (s := { s with host := rest }) hs] at hstart
  obtain ⟨-, -, hsrc, hdst, hsrcLen, hdstLen⟩ := hp
  obtain ⟨t, hrun, hbytes, hother, -, hresp, hseq, hhost, ⟨hdir, hda, hdl, hsa, hsl⟩, hown⟩ :=
    acceptedCommandWritesCrypt
      ((({ s with host := rest } : State).latch (opcodeDir op) dstAddr dstLen srcAddr srcLen).setSeq .inputUnmask)
      hwf rfl hu hl (by simp only [State.setSeq_srcAddr, State.latch_srcAddr]; omega)
      (by simp only [State.setSeq_dstAddr, State.latch_dstAddr]; omega)
  exact ⟨t, (run_succ hstart 11).trans hrun, hbytes, hother, hresp, hseq, hdir, hda, hdl, hsa, hsl, hhost, hown⟩

/-- R136 and R137 in one: the strap's refusal, or the net effect. -/
theorem SoundCipher.netEffect (h : SoundCipher op lacking dstAddr dstLen srcAddr srcLen)
    (hwf : Memory.wf s.buf = true) :
    if Config.dircap = lacking then
      step s = .next { s with host := rest, resp := s.resp ++ [⟨.illegalCommand, op⟩] }
    else ∃ t, core.run 12 s = .next t ∧ CipherNetEffect (opcodeDir op) dstAddr dstLen srcAddr srcLen rest s t := by
  split
  · next hcap =>
    rw [step_of_cmdWord hu hl hs hh, h.acceptCommand_eq (s := { s with host := rest }) hs, if_pos hcap]
    rfl
  · next hcap => exact run_of_cmdWord hu hl hs hh hwf (h.passesChecks hcap)

end

/-- Settles O58: the net effect of a cipher command, for opcode 2 and its direction 0. -/
theorem encNetEffect : Obligations.EncNetEffect := by
  intro s dstAddr dstLen srcAddr srcLen rest hwf hs hu hl hh hsrc hdst hsrcLen hdstLen
  exact (SoundCipher.enc hsrc hdst hsrcLen hdstLen).netEffect hu hl hs hh hwf

/-- Settles O59: the net effect of a cipher command, for opcode 3 and its direction 1. -/
theorem decNetEffect : Obligations.DecNetEffect := by
  intro s dstAddr dstLen srcAddr srcLen rest hwf hs hu hl hh hsrc hdst hsrcLen hdstLen
  exact (SoundCipher.dec hsrc hdst hsrcLen hdstLen).netEffect hu hl hs hh hwf

/-- Settles O60: each run stores CRYPT of its direction and source bytes, which the two runs share, and responds OK. -/
theorem outcomeDependsOnTheSourceBytesAlone : Obligations.OutcomeDependsOnTheSourceBytesAlone := by
  intro s u hwfs hwfu hs hu hsu huu hsl hul hssrc hsdst husrc hudst hdir hbytes
  obtain ⟨t, hrunt, hbytest, -, -, hrespt, -⟩ := acceptedCommandWritesCrypt s hwfs hs hsu hsl hssrc hsdst
  obtain ⟨v, hrunv, hbytesv, -, -, hrespv, -⟩ := acceptedCommandWritesCrypt u hwfu hu huu hul husrc hudst
  refine ⟨t, v, ⟨.ok, 0⟩, hrunt, hrunv, ?_, hrespt, hrespv⟩
  rw [hbytest, hbytesv, hdir, hbytes]

end Sys2Proof.Machine

namespace Sys2Proof.Machine

/-! ### Every step from the invariant completes (R48, R150) -/

section
variable {i : Instr} {s t : State}

@[simp] theorem acceptCommand_unitReq (cap : DirCap) (op : Byte) (dstAddr dstLen srcAddr srcLen : Addr) (s : State) :
    (acceptCommand cap op dstAddr dstLen srcAddr srcLen s).unitReq = s.unitReq := by
  obtain ⟨-, h⟩ | ⟨-, r, h⟩ | ⟨-, -, h⟩ := acceptCommand_cases cap op dstAddr dstLen srcAddr srcLen s <;> simp [h]

/-- No operation makes a unit request (log 11). -/
theorem exec_unitReq (h : exec i s = .next t) : t.unitReq = s.unitReq := by
  cases exec_effect h with
  | blksz => exact acceptCommand_unitReq ..
  | enc dstAddr dstLen srcAddr srcLen => exact acceptCommand_unitReq ..
  | dec dstAddr dstLen srcAddr srcLen => exact acceptCommand_unitReq ..
  | scratch hi pb pw out => rfl
  | unit hi w pw => rfl
  | inputUnmask hfit w pb => rfl
  | mainRound r w pw => rfl
  | finalRound w pb m hm => rfl

/-- The request there may be is taken with the step's inputs (log 11). -/
@[simp] theorem consume_unitReq (s : State) : (consume s).unitReq = none := by
  unfold consume
  split
  · rfl
  · next hu => split <;> exact hu

/-- No step leaves a unit request behind (log 11). -/
theorem step_unitReq (h : step s = .next t) : t.unitReq = none := by
  obtain rfl | ⟨a, v, rfl⟩ | ⟨i, h⟩ | ⟨op, rfl⟩ := step_cases h
  · rfl
  · exact consume_unitReq s
  · rw [exec_unitReq h, consume_unitReq]
  · rw [acceptCommand_unitReq, consume_unitReq]

theorem FaultsPast.completes {base : Addr} {o : Result} (h : FaultsPast base o) (hfit : base.toNat + 16 ≤ 2 ^ 32) :
    ∃ t, o = .next t := by
  obtain ⟨-, hnext⟩ | ⟨hpast, -⟩ := h
  · exact hnext
  · omega

/-- The slices of a command under way hold the 16 bytes that INPUT_UNMASK reads and FINAL_ROUND writes (R48). -/
theorem State.SlicesFit.sixteenFit (h : s.SlicesFit) (hs : s.seq ≠ .done) :
    s.srcAddr.toNat + 16 ≤ 2 ^ 32 ∧ s.dstAddr.toNat + 16 ≤ 2 ^ 32 := by
  obtain ⟨hsrc, hdst, hsrcLen, hdstLen⟩ := h hs
  omega

/-- Within a command no operation faults: the two accesses to BUF stay in its slices (R150). -/
theorem step_underway_completes (hr : s.noReset = true) (hu : s.unitReq = none) (hs : s.seq ≠ .done)
    (hfit : s.SlicesFit) : ∃ t, step s = .next t := by
  obtain ⟨hsrc, hdst⟩ := hfit.sixteenFit hs
  rw [step_of_underway hr hu hs]
  cases s.seq with
  | inputUnmask => exact (inputUnmask_faultsPast Config.tables { s with resetLine := s.resetLine.tail }).completes hsrc
  | mainRound r => exact ⟨_, rfl⟩
  | finalRound => exact (finalRound_faultsPast Config.tables { s with resetLine := s.resetLine.tail }).completes hdst
  | done => exact ⟨_, rfl⟩

/-- In DONE every move of the host has an outcome, and so has its absence (R124, R138). -/
theorem step_done_completes (hr : s.noReset = true) (hu : s.unitReq = none) (hs : s.seq = .done) :
    ∃ t, step s = .next t := by
  match hh : s.host with
  | [] => exact ⟨_, step_of_idle hr hu hs hh⟩
  | .command c :: rest => exact ⟨_, step_of_command_eq hr hu hs hh⟩
  | .store a v :: rest => exact ⟨_, step_of_store hr hu hs hh⟩

theorem step_completes (hfit : s.SlicesFit) (hu : s.unitReq = none) : ∃ t, step s = .next t := by
  cases hr : s.noReset with
  | false => exact ⟨_, step_of_reset hr⟩
  | true =>
    by_cases hs : s.seq = .done
    · exact step_done_completes hr hu hs
    · exact step_underway_completes hr hu hs hfit

end

/-- Settles O56: the slices of the invariant let every step complete; O55 and that no step makes a request give the
rest. -/
theorem everyStepFromTheInvariantCompletes : Obligations.EveryStepFromTheInvariantCompletes := by
  intro s hinv hu
  have ⟨_, hfit, _⟩ := hinv
  obtain ⟨t, h⟩ := step_completes hfit hu
  exact ⟨t, h, everyStepKeepsTheInvariant s t hinv h, step_unitReq h⟩

end Sys2Proof.Machine

namespace Sys2Proof.Machine

/-! ### The four faults, in the order of the checks (R138, R151 to R154) -/

/-- The opcodes outside the map are 0 and those from 4 up (R61). -/
theorem not_mapped_iff (op : Byte) : (op ≠ 0x01 ∧ op ≠ 0x02 ∧ op ≠ 0x03) ↔ op = 0x00 ∨ 4 ≤ op.toNat := by
  bv_omega

/-- The opcodes of R151's list are the ones that the opcode check refuses. -/
theorem reservedOpcode_iff_listed (cap : DirCap) (op : Byte) :
    reservedOpcode cap op = true ↔
      op = 0x00 ∨ 4 ≤ op.toNat ∨ (op = 0x03 ∧ cap = .encOnly) ∨ (op = 0x02 ∧ cap = .decOnly) := by
  rw [reservedOpcode_iff, not_mapped_iff, or_assoc, or_comm (a := op = 0x02 ∧ _)]

/-- Settles O17: the opcode check comes first, so that no operand is looked at. -/
theorem reservedOpcodesAreIllegalCommands : Obligations.ReservedOpcodesAreIllegalCommands := by
  intro cap op dstAddr dstLen srcAddr srcLen s hs hop
  exact ⟨acceptCommand_reserved hs ((reservedOpcode_iff_listed cap op).mpr hop), respWord_illegalCommand op⟩

/-- A cipher opcode that the strap leaves in passes the opcode check and is not BLKSZ's (R61, R71). -/
theorem not_reserved_of_has {cap : DirCap} {op : Byte}
    (h : (op = 0x02 ∧ cap ≠ .decOnly) ∨ (op = 0x03 ∧ cap ≠ .encOnly)) :
    reservedOpcode cap op = false ∧ op ≠ 0x01#8 := by
  rw [← Bool.not_eq_true, reservedOpcode_iff]
  obtain ⟨rfl, hcap⟩ | ⟨rfl, hcap⟩ := h <;> simp [hcap]

/-- Settles O18: the slice check is the first that a cipher command of the instance meets. -/
theorem slicesPastTheEndAreBad : Obligations.SlicesPastTheEndAreBad := by
  intro cap op dstAddr dstLen srcAddr srcLen s hs hhas hbad
  obtain ⟨hres, hop⟩ := not_reserved_of_has hhas
  rw [acceptCommand_cipher hs hres hop, if_pos hbad]
  exact ⟨rfl, rfl⟩

/-- Settles O19: past the slice check, the source length is looked at first. -/
theorem shortSourcesAreRefused : Obligations.ShortSourcesAreRefused := by
  intro cap op dstAddr dstLen srcAddr srcLen s hs hhas hsrc hdst hshort
  obtain ⟨hres, hop⟩ := not_reserved_of_has hhas
  rw [acceptCommand_cipher hs hres hop, if_neg (by omega), if_pos hshort]
  exact ⟨rfl, rfl⟩

/-- Settles O20: past the slice check and the source length, the destination length is left. -/
theorem shortDestinationsAreRefused : Obligations.ShortDestinationsAreRefused := by
  intro cap op dstAddr dstLen srcAddr srcLen s hs hhas hsrc hdst hlong hshort
  obtain ⟨hres, hop⟩ := not_reserved_of_has hhas
  rw [acceptCommand_cipher hs hres hop, if_neg (by omega), if_neg (by omega), if_pos hshort]
  exact ⟨rfl, rfl⟩

end Sys2Proof.Machine

namespace Sys2Proof.Machine

/-! ### What the reset event leaves (R170, R171) -/

theorem freeBlock_getElem (draw slot : Nat) (i : Fin 16) :
    (freeBlock draw slot)[i] = Config.freeByte draw (slot + i.val) := by
  simp [freeBlock]

section
variable {s : State}

theorem resetBuf_of_done (hs : s.seq = .done) : resetBuf s = s.buf := if_pos hs

theorem resetBuf_of_stored {m : Memory} (hs : s.seq ≠ .done)
    (hm : storeBlock s.buf s.dstAddr (freeBlock s.fresh 16) = some m) : resetBuf s = m := by
  rw [resetBuf, if_neg hs, hm, Option.getD_some]

/-- Where the destination would run past the end of BUF nothing is stored. No accepted command latches such a
destination (R48); a state outside the invariant can hold one. -/
theorem resetBuf_of_not_fits (hs : s.seq ≠ .done) (hfit : ¬ s.dstAddr.toNat + 16 ≤ 2 ^ 32) : resetBuf s = s.buf := by
  rw [resetBuf, if_neg hs, storeBlock_none hfit, Option.getD_none]

/-- What a command cut short leaves at its destination is free (R171). -/
theorem read_resetBuf_destination (hwf : Memory.wf s.buf = true) (hs : s.seq ≠ .done)
    (hfit : s.dstAddr.toNat + 16 ≤ 2 ^ 32) (i : Fin 16) :
    Memory.read (resetBuf s) (s.dstAddr.toNat + i.val) = Config.freeByte s.fresh (16 + i.val) := by
  obtain ⟨m, hm⟩ := storeBlock_fits hfit s.buf (freeBlock s.fresh 16)
  obtain ⟨-, hbytes, -⟩ := storeBlock_spec hwf hm
  rw [resetBuf_of_stored hs hm, hbytes i, freeBlock_getElem]

/-- The frame of BUF: a reset touches nothing but the destination's 16 bytes (R171). -/
theorem read_resetBuf_outside (hwf : Memory.wf s.buf = true) {a : Nat}
    (ha : a < s.dstAddr.toNat ∨ s.dstAddr.toNat + 16 ≤ a) : Memory.read (resetBuf s) a = Memory.read s.buf a := by
  by_cases hs : s.seq = .done
  · rw [resetBuf_of_done hs]
  by_cases hfit : s.dstAddr.toNat + 16 ≤ 2 ^ 32
  · obtain ⟨m, hm⟩ := storeBlock_fits hfit s.buf (freeBlock s.fresh 16)
    obtain ⟨-, -, hother⟩ := storeBlock_spec hwf hm
    rw [resetBuf_of_stored hs hm, hother a ha]
  · rw [resetBuf_of_not_fits hs hfit]

end

/-- W holds free values in the first 16 slots of the draw (R31, R170; log 4). -/
theorem resetEvent_w_getElem (s : State) (i : Fin 16) : (resetEvent s).w[i] = Config.freeByte s.fresh i.val := by
  have hw : (resetEvent s).w = freeBlock s.fresh 0 := rfl
  rw [hw, freeBlock_getElem, Nat.zero_add]

/-- Settles O51: the step is the reset event, and what it leaves of BUF is read off the block it stores. -/
theorem resetIdlesTheBlock : Obligations.ResetIdlesTheBlock := by
  intro s hwf hr
  refine ⟨resetEvent s, step_of_reset hr, rfl, rfl, rfl, rfl, rfl, resetEvent_w_getElem s, ?idle, ?outside, ?cutShort⟩
  case idle => exact fun hs a => congrArg (Memory.read · a) (resetBuf_of_done hs)
  case outside => exact fun a ha => read_resetBuf_outside hwf ha
  case cutShort => exact fun hs hfit i => read_resetBuf_destination hwf hs hfit i

end Sys2Proof.Machine
